-- ==== Sys2Proof/Word.lean ====
section
/-! DEFINITION. The words of the block: 32-bit command and response words, 16-bit cells, bytes of a byte bus. -/

namespace Sys2Proof

/-- A command word, a response word or a timer register (00_scope.md R8, 30_encoding.md R70). -/
abbrev Word := BitVec 32

/-- The content of one pixel cell, 16 raw bits (10_state.md R23, 30_encoding.md R75). -/
abbrev Color := BitVec 16

/-- A byte, only where a bus carries a word as bytes (20_memory.md R55). -/
abbrev Byte := BitVec 8

end Sys2Proof
end

