-- ==== Sys2Proof/Syntax.lean ====
section
/-! DEFINITION. The commands of the host port, one constructor per row of the opcode table. -/

namespace Sys2Proof

/-- The eight rows of 30_encoding.md R76. The coordinates are the signed integers that decoding reads (R73, R74, R80). -/
inductive Instr where
  /-- 41_host_commands.md R122. -/
  | nop
  /-- 41_host_commands.md R124. -/
  | setPixel (x y : Int) (color : Color)
  /-- 41_host_commands.md R127. -/
  | getPixel (x y : Int)
  /-- 41_host_commands.md R129. -/
  | refresh
  /-- 41_host_commands.md R132. -/
  | start
  /-- 41_host_commands.md R135. -/
  | status
  /-- 41_host_commands.md R136 with op = 6. -/
  | rsvd6
  /-- 41_host_commands.md R136 with op = 7. -/
  | rsvd7
  deriving DecidableEq, Repr

end Sys2Proof
end

