-- ==== Sys2Proof/WellFormed.lean ====
section
/-! DEFINITION. Which commands have an encoding: the operand ranges of 30_encoding.md R83. -/

namespace Sys2Proof

/-- A column operand the X field can hold: -64..63 (30_encoding.md R73, R83). -/
def xEncodable (x : Int) : Bool := decide (-64 ≤ x) && decide (x ≤ 63)

/-- A row operand the Y field can hold: -32..31 (30_encoding.md R74, R83). -/
def yEncodable (y : Int) : Bool := decide (-32 ≤ y) && decide (y ≤ 31)

/-- The operands fit their fields. COLOR needs no check: its type has the field's 16 bits (30_encoding.md R75). -/
def Instr.wellFormed : Instr → Bool
  | .nop => true
  | .setPixel x y _ => xEncodable x && yEncodable y
  | .getPixel x y => xEncodable x && yEncodable y
  | .refresh => true
  | .start => true
  | .status => true
  | .rsvd6 => true
  | .rsvd7 => true

end Sys2Proof
end

