-- ==== Sys2Proof/Decode.lean ====
section
/-! DEFINITION. The decoder and the encoder of command words (30_encoding.md), and the byte order of a byte bus
(20_memory.md R55). -/

namespace Sys2Proof

/-- OP, bits 31:29, read unsigned (30_encoding.md R71, R72). -/
def opField (w : Word) : BitVec 3 := w.extractLsb' 29 3

/-- X, bits 28:22 (30_encoding.md R71). -/
def xField (w : Word) : BitVec 7 := w.extractLsb' 22 7

/-- Y, bits 21:16 (30_encoding.md R71). -/
def yField (w : Word) : BitVec 6 := w.extractLsb' 16 6

/-- COLOR, bits 15:0, raw (30_encoding.md R71, R75). -/
def colorField (w : Word) : Color := w.extractLsb' 0 16

/-- The column coordinate, sint of X (30_encoding.md R73). -/
def xOperand (w : Word) : Int := (xField w).toInt

/-- The row coordinate, sint of Y (30_encoding.md R74). -/
def yOperand (w : Word) : Int := (yField w).toInt

/-- Decode(w) of 30_encoding.md R80: total, and a function of the word alone. A 3-bit OP that is none of 0..6 is 7. -/
def decode (w : Word) : Instr :=
  match (opField w).toNat with
  | 0 => .nop
  | 1 => .setPixel (xOperand w) (yOperand w) (colorField w)
  | 2 => .getPixel (xOperand w) (yOperand w)
  | 3 => .refresh
  | 4 => .start
  | 5 => .status
  | 6 => .rsvd6
  | _ => .rsvd7

/-- Why bytes are no command. -/
inductive DecodeError where
  /-- Fewer than the four bytes of a command word are there (30_encoding.md R70: every command is one 32-bit word). -/
  | truncated
  deriving DecidableEq, Repr

/-- The bytes of a word in bus order: byte k is bits 8k+7:8k, byte 0 first (20_memory.md R55). -/
def bytesOfWord (w : Word) : List Byte :=
  [w.extractLsb' 0 8, w.extractLsb' 8 8, w.extractLsb' 16 8, w.extractLsb' 24 8]

/-- The word that four bytes carry, byte 0 in bits 7:0 (20_memory.md R55). -/
def wordOfBytes (b0 b1 b2 b3 : Byte) : Word := b3 ++ b2 ++ b1 ++ b0

/-- The first command of a byte stream and the bytes after it; a stream too short for a command is rejected by name. -/
def decodeBytes : List Byte → Except DecodeError (Instr × List Byte)
  | b0 :: b1 :: b2 :: b3 :: rest => .ok (decode (wordOfBytes b0 b1 b2 b3), rest)
  | _ => .error .truncated

/-- The command word that carries the low nbits bits of w, the bits above them zero. -/
def tableWord (nbits w : Nat) : Word := BitVec.ofNat 32 (w % 2 ^ nbits)

/-- What the decoder reads from an opcode-table word. A command is 32 bits (30_encoding.md R70), so a longer row is none. -/
def decodeTableWord (nbits w : Nat) : Option Instr :=
  if nbits ≤ 32 then
    match decodeBytes (bytesOfWord (tableWord nbits w)) with
    | .ok (i, []) => some i
    | _ => none
  else none

/-- The opcode of a command (30_encoding.md R76). -/
def Instr.opcode : Instr → BitVec 3
  | .nop => 0
  | .setPixel _ _ _ => 1
  | .getPixel _ _ => 2
  | .refresh => 3
  | .start => 4
  | .status => 5
  | .rsvd6 => 6
  | .rsvd7 => 7

/-- Enc(op, x, y, c) of 30_encoding.md R85: op at bit 29, x mod 128 at bit 22, y mod 64 at bit 16, c at bit 0. -/
def enc (op : BitVec 3) (x y : Int) (c : Color) : Word :=
  op ++ BitVec.ofInt 7 x ++ BitVec.ofInt 6 y ++ c

/-- The canonical word of a command: operands it does not take are 0 (30_encoding.md R77, R85). -/
def encode : Instr → Word
  | .nop => enc 0 0 0 0
  | .setPixel x y color => enc 1 x y color
  | .getPixel x y => enc 2 x y 0
  | .refresh => enc 3 0 0 0
  | .start => enc 4 0 0 0
  | .status => enc 5 0 0 0
  | .rsvd6 => enc 6 0 0 0
  | .rsvd7 => enc 7 0 0 0

/-- The bits of the word that a command reads (30_encoding.md R76); the others are ignored. -/
def usedMask : Instr → Word
  | .setPixel _ _ _ => 0xFFFFFFFF#32
  | .getPixel _ _ => 0xFFFF0000#32
  | .nop => 0xE0000000#32
  | .refresh => 0xE0000000#32
  | .start => 0xE0000000#32
  | .status => 0xE0000000#32
  | .rsvd6 => 0xE0000000#32
  | .rsvd7 => 0xE0000000#32

end Sys2Proof
end

