-- ==== Sys2Proof/Config.lean ====
section
/-! DEFINITION. What an implementation fixes (the open parameters of 00_scope.md R8), the agents whose steps interleave
(60_exceptions.md R150), and the free values. An opaque constant has no value that Lean can see. -/

namespace Sys2Proof

/-- A move: which agent takes the next transition (60_exceptions.md R150; the environment's moves among them). -/
inductive Move where
  /-- The host sends the word w, any word at any time (60_exceptions.md R179): it joins the words to present. -/
  | send (w : Word)
  /-- The host presents its next word at the empty port (10_state.md R40). -/
  | present
  /-- HostStep: the word at the port head is executed, unless held (41_host_commands.md R120). -/
  | host
  /-- EXPIRE of the untimed abstraction (60_exceptions.md R154, R160). -/
  | expire
  /-- A rising edge of clk: the cycle-level timer (60_exceptions.md R152, R153). -/
  | clk
  /-- TICK of the scan engine (40_scan_engine.md R91). -/
  | tick
  /-- A TICK whose TimerLoad falls on the same edge as a compare (60_exceptions.md R158, R164). -/
  | tickOnClk
  /-- The cycle-level choice at a boundary between host commands (60_exceptions.md R163). -/
  | boundary
  /-- RESET by the environment (70_reset_and_hazards.md R180). -/
  | reset
  deriving DecidableEq, Repr, Inhabited

namespace Config

/-- TIMER_CLK_HZ: the block clock's frequency in Hz, an OPEN positive natural (00_scope.md R8, D18). -/
opaque timerClkHz : PNat

/-- TIMER_DIV: the prescaler, an OPEN positive natural (00_scope.md R8, D18). -/
opaque timerDiv : PNat

/-- BASE_PERIOD_US: the base period P in microseconds, an OPEN positive natural (00_scope.md R8, D18). -/
opaque basePeriodUs : PNat

/-- FREE VALUE: the n-th choice of a mover where the schedule names none (20_memory.md R63 leaves the order free). -/
opaque freeMove : Nat → Move

/-- FREE VALUE: cmd_ready where no hold applies (10_state.md R40, 93_implementation_defined.md I11). -/
opaque freeReady : Nat → Bool

end Config

end Sys2Proof
end

