-- ==== Sys2Proof/Machine/State.lean ====
section
/-! DEFINITION. The state of the block (10_state.md R20), the observation lists a model keeps (R20, R40, R42, R46), the
environment's script, the reasons a step can stop, and the state after reset (R44, R183). -/

namespace Sys2Proof.Machine

/-- The pixel space (20_memory.md R50): pairs of a pixel address and its cell, addresses strictly rising, no cell listed
that is 0x0000, which is what an unlisted cell reads as (10_state.md R44). -/
abbrev Memory := List (Nat × Color)

/-- The twelve output pins (10_state.md R36). -/
inductive Pin where
  | r1 | g1 | b1 | r2 | g2 | b2 | a | b | c | clk | lat | oe
  deriving DecidableEq, Repr

/-- The level each pin holds (10_state.md R36). -/
structure Pins where
  r1  : Bool
  g1  : Bool
  b1  : Bool
  r2  : Bool
  g2  : Bool
  b2  : Bool
  a   : Bool
  b   : Bool
  c   : Bool
  clk : Bool
  lat : Bool
  oe  : Bool
  deriving DecidableEq, Repr

/-- The events of the trace (00_scope.md R14). -/
inductive Event where
  /-- Pin(p, v). -/
  | pin (p : Pin) (v : Bool)
  /-- TimerLoad(n). -/
  | timerLoad (n : Word)
  /-- TimerStart(n). -/
  | timerStart (n : Word)
  /-- Swap(s), s the store that became front. -/
  | swap (s : BitVec 1)
  /-- Reset. -/
  | reset
  deriving DecidableEq, Repr

/-- No step of this machine ends in a fault, so there is no reason for one (safe): decoding is total (30_encoding.md R80), a
false enabling condition is no fault (00_scope.md R15), and the one exception, CmdFault, is a next state in which the block
goes on (60_exceptions.md R165 to R167). -/
inductive Fault where
  deriving DecidableEq, Repr

/-- Why an instruction has no meaning. -/
inductive Refusal where
  /-- Raised by an arm of exec for an instruction not modelled yet; no arm raises it now. Safe: the machine stops. -/
  | notModelled (mnemonic : String)
  deriving DecidableEq, Repr

/-- The state of the block and of what a model observes and drives around it. -/
structure State where
  /-- The two pixel stores, store A at 0..511, store B at 512..1023 (10_state.md R23, 20_memory.md R50). -/
  mem : Memory
  /-- front_sel: the store with the front role (R24). -/
  frontSel : BitVec 1
  /-- pending: the swap-request flag (R26). -/
  pending : Bool
  /-- bit_idx: the bit-plane index of the cursor (R27). -/
  bitIdx : BitVec 2
  /-- row_idx: the row-pair index of the cursor (R28). -/
  rowIdx : BitVec 3
  /-- tmr_en: the timer counter runs (R30). -/
  tmrEn : Bool
  /-- tmr_ien: an expiry raises the tick interrupt (R30). -/
  tmrIen : Bool
  /-- tmr_cnt: timer ticks since the last expiry or START (R31). -/
  tmrCnt : Word
  /-- tmr_pre: the prescaler count (R33). -/
  tmrPre : Nat
  /-- tmr_rc: the timer compare register (R32). -/
  tmrRc : Word
  /-- tick_pending: one expiry not yet taken (R34). -/
  tickPending : Bool
  /-- tick_overrun: sticky, an expiry was lost (R34). -/
  tickOverrun : Bool
  /-- cmd_fault: sticky, a CmdFault was raised (R35). -/
  cmdFault : Bool
  /-- fault_op: the opcode of the first command that raised CmdFault (R35). -/
  faultOp : BitVec 3
  /-- The twelve panel output pins (R36). -/
  pins : Pins
  /-- The word at the head of the command port (R20, R40). -/
  portHead : Option Word
  /-- The response port: some v is rsp_valid = 1 with rsp_data = v (R42). -/
  rspPort : Option Word
  /-- The response stream, oldest first (R42). -/
  responses : List Word
  /-- The trace, oldest first (R46). -/
  trace : List Event
  /-- The words the host has sent and has yet to present, oldest first (R40, 60_exceptions.md R179). -/
  hostQueue : List Word
  /-- The model's own field: the movers still to come, next first (the free order of 20_memory.md R63). -/
  schedule : List Move
  /-- The model's own field: how many free choices have been taken. -/
  choices : Nat
  deriving DecidableEq, Repr

/-- The pins at reset (R37, R44). -/
def Pins.reset : Pins :=
  ⟨false, false, false, false, false, false, false, false, false, false, false, false⟩

/-- The state after reset (10_state.md R44), with the empty trace of the start of a run (70_reset_and_hazards.md R183). -/
def State.reset : State where
  mem := []
  frontSel := 0#1
  pending := false
  bitIdx := 0#2
  rowIdx := 0#3
  tmrEn := false
  tmrIen := false
  tmrCnt := 0#32
  tmrPre := 0
  tmrRc := 0#32
  tickPending := false
  tickOverrun := false
  cmdFault := false
  faultOp := 0#3
  pins := Pins.reset
  portHead := none
  rspPort := none
  responses := []
  trace := []
  hostQueue := []
  schedule := []
  choices := 0

end Sys2Proof.Machine
end

