-- ==== Sys2Proof/Machine/Ops.lean ====
section
/-! DEFINITION. The primitives over the pixel space, the pins, the trace and the response port (00_scope.md R12, R13), and
taking the block's one exception, CmdFault (60_exceptions.md R165). -/

namespace Sys2Proof.Machine

/-- MemRead(addr, 1): an unlisted cell reads as the reset contents 0x0000 (00_scope.md R12, 10_state.md R44). -/
def Memory.read : Memory → Nat → Color
  | [], _ => 0#16
  | (k, u) :: m, a => if k = a then u else Memory.read m a

/-- MemWrite(addr, 1, v) (00_scope.md R12). It keeps the canonical form: addresses rising, no 0x0000 listed. -/
def Memory.write : Memory → Nat → Color → Memory
  | [], a, v => if v = 0#16 then [] else [(a, v)]
  | (k, u) :: m, a, v =>
    if a < k then (if v = 0#16 then (k, u) :: m else (a, v) :: (k, u) :: m)
    else if a = k then (if v = 0#16 then m else (a, v) :: m)
    else (k, u) :: Memory.write m a v

/-- The canonical form of the pixel space: addresses strictly rising, below 1024 (20_memory.md R50), no cell listed that
reads as an unlisted one. -/
abbrev Memory.wf (m : Memory) : Prop :=
  m.Pairwise (fun p q => p.1 < q.1) ∧ ∀ p ∈ m, p.2 ≠ 0#16 ∧ p.1 < 1024

/-- The pixel address of cell i of store s: s * 512 + i (20_memory.md R50). -/
def pixAddr (s : BitVec 1) (i : Nat) : Nat := s.toNat * 512 + i

/-- PixRead(s, i) (00_scope.md R12). -/
def pixRead (st : BitVec 1) (i : Nat) (s : State) : Color := s.mem.read (pixAddr st i)

/-- PixWrite(s, i, v) (00_scope.md R12). -/
def pixWrite (st : BitVec 1) (i : Nat) (v : Color) (s : State) : State :=
  { s with mem := s.mem.write (pixAddr st i) v }

/-- n cells of store st set to 0x0000 in turn, from cell 0 on: the loop of SWAP (40_scan_engine.md R110). -/
def zeroCells (st : BitVec 1) : Nat → State → State
  | 0, s => s
  | n + 1, s => pixWrite st n 0#16 (zeroCells st n s)

/-- All 512 cells of store st set to 0x0000 (40_scan_engine.md R110). Irreducible, so that no proof unfolds the 512 writes by
accident: cite its lemmas. -/
@[irreducible] def zeroStore (st : BitVec 1) (s : State) : State := zeroCells st 512 s

/-- Append an event to the trace (00_scope.md R14). -/
def appendEvent (e : Event) (s : State) : State := { s with trace := s.trace ++ [e] }

/-- The pins after pin p is set to level v (10_state.md R36). -/
def Pins.set (q : Pins) : Pin → Bool → Pins
  | .r1, v => { q with r1 := v }
  | .g1, v => { q with g1 := v }
  | .b1, v => { q with b1 := v }
  | .r2, v => { q with r2 := v }
  | .g2, v => { q with g2 := v }
  | .b2, v => { q with b2 := v }
  | .a, v => { q with a := v }
  | .b, v => { q with b := v }
  | .c, v => { q with c := v }
  | .clk, v => { q with clk := v }
  | .lat, v => { q with lat := v }
  | .oe, v => { q with oe := v }

/-- The level of pin p (10_state.md R36). -/
def Pins.get (q : Pins) : Pin → Bool
  | .r1 => q.r1
  | .g1 => q.g1
  | .b1 => q.b1
  | .r2 => q.r2
  | .g2 => q.g2
  | .b2 => q.b2
  | .a => q.a
  | .b => q.b
  | .c => q.c
  | .clk => q.clk
  | .lat => q.lat
  | .oe => q.oe

/-- PinWrite(p, v): the pin takes the level and the event is appended, even when the level does not change
(00_scope.md R13). -/
def pinWrite (p : Pin) (v : Bool) (s : State) : State :=
  appendEvent (.pin p v) { s with pins := s.pins.set p v }

/-- Pin writes in order (20_memory.md R69). -/
def pinWrites : List (Pin × Bool) → State → State
  | [], s => s
  | (p, v) :: ws, s => pinWrites ws (pinWrite p v s)

/-- Respond(v): the word joins the response stream and stands on the response port (00_scope.md R13, 10_state.md R42). -/
def respond (v : Word) (s : State) : State :=
  { s with responses := s.responses ++ [v], rspPort := some v }

/-- raise CmdFault(op), the block's one synchronous exception (60_exceptions.md R165): both registers are sticky and the
opcode is recorded only the first time. There is no handler and nothing to return from (R167, R168). -/
def raiseCmdFault (op : BitVec 3) (s : State) : State :=
  { s with faultOp := if s.cmdFault then s.faultOp else op, cmdFault := true }

end Sys2Proof.Machine
end

