-- ==== Sys2Proof/Machine/Operands.lean ====
section
/-! DEFINITION. The operand forms: coordinates (41_host_commands.md R123, 20_memory.md R51), the roles of the stores
(20_memory.md R52), and the channel bits of a cell (40_scan_engine.md R97). -/

namespace Sys2Proof.Machine

/-- InRange(x, y), a signed comparison (41_host_commands.md R123). -/
def inRange (x y : Int) : Bool :=
  decide (0 ≤ x) && decide (x < 32) && decide (0 ≤ y) && decide (y < 16)

/-- Index(x, y) = y * 32 + x, for coordinates in range (20_memory.md R51). -/
def cellIndex (x y : Nat) : Nat := y * 32 + x

/-- The store with the back role, 1 - front_sel (10_state.md R24). -/
def backStore (s : State) : BitVec 1 := 1#1 - s.frontSel

/-- The cell of the back store at in-range coordinates (20_memory.md R51, R52). -/
def backCell (x y : Int) (s : State) : Color := pixRead (backStore s) (cellIndex x.toNat y.toNat) s

/-- The back cell at in-range coordinates is written (20_memory.md R51, R52). -/
def writeBackCell (x y : Int) (v : Color) (s : State) : State :=
  pixWrite (backStore s) (cellIndex x.toNat y.toNat) v s

/-- The cell of the front store in a column and row (20_memory.md R51, R52). -/
def frontCell (col row : Nat) (s : State) : Color := pixRead s.frontSel (cellIndex col row) s

/-- CH_OFF_R (00_scope.md R8). -/
def chOffR : Nat := 11

/-- CH_OFF_G (00_scope.md R8). -/
def chOffG : Nat := 6

/-- CH_OFF_B (00_scope.md R8). -/
def chOffB : Nat := 0

/-- ChanBit(c, o, b) = (c >> (o + b + 1)) & 1 = c[o + b + 1] (40_scan_engine.md R97). -/
def chanBit (c : Color) (o : Nat) (b : BitVec 2) : Bool := c.getLsbD (o + b.toNat + 1)

end Sys2Proof.Machine
end

