-- ==== Sys2Proof/Machine/Flags.lean ====
section
/-! DEFINITION. What is computed from the flags: the STATUS view (10_state.md R38) and the hold (41_host_commands.md R120). -/

namespace Sys2Proof.Machine

/-- StatusWord(): fifteen bits of flags, cursor and role, zero-extended (10_state.md R38). -/
def statusWord (s : State) : Word :=
  (BitVec.ofBool s.tickPending ++ s.frontSel ++ s.rowIdx ++ s.bitIdx ++ BitVec.ofBool s.tickOverrun ++ s.faultOp ++
    BitVec.ofBool s.cmdFault ++ BitVec.ofBool s.tmrIen ++ BitVec.ofBool s.tmrEn ++ BitVec.ofBool s.pending).setWidth 32

/-- The commands that wait for a pending swap (41_host_commands.md R120). -/
def waitsForSwap : Instr → Bool
  | .nop => false
  | .setPixel _ _ _ => true
  | .getPixel _ _ => false
  | .refresh => true
  | .start => false
  | .status => false
  | .rsvd6 => false
  | .rsvd7 => false

/-- Held(cmd) = (cmd is SETPIXEL or cmd is REFRESH) and pending == 1 (41_host_commands.md R120). -/
def held (i : Instr) (s : State) : Bool := waitsForSwap i && s.pending

end Sys2Proof.Machine
end

