-- ==== Sys2Proof/Machine/Timer.lean ====
section
/-! DEFINITION. The timer device: period quantisation, TimerLoad, TimerStart, EXPIRE and the cycle-level prescaler and
counter (60_exceptions.md R151 to R161, 41_host_commands.md R133). -/

namespace Sys2Proof.Machine

/-- Quantize(us) for given parameters: nearest, a tie up, clamped to [1, 2^32 - 1] (60_exceptions.md R155). -/
def quantizeWith (clkHz div us : Nat) : Nat :=
  min (2 ^ 32 - 1) (max 1 ((2 * us * clkHz + div * 1000000) / (2 * (div * 1000000))))

/-- Quantize(us) of this configuration (60_exceptions.md R155). -/
def quantize (us : Nat) : Nat := quantizeWith Config.timerClkHz Config.timerDiv us

/-- PERIOD_TICKS[b] = Quantize(BASE_PERIOD_US * 2^b) (60_exceptions.md R155). -/
def periodTicks (b : BitVec 2) : Word := BitVec.ofNat 32 (quantize (Config.basePeriodUs * 2 ^ b.toNat))

/-- TimerLoad(n): neither the counter nor the prescaler changes (60_exceptions.md R157). -/
def timerLoad (n : Word) (s : State) : State :=
  appendEvent (.timerLoad n) { s with tmrRc := n, tmrIen := true }

/-- TimerStart(n) (41_host_commands.md R133). -/
def timerStart (n : Word) (s : State) : State :=
  appendEvent (.timerStart n)
    { s with tmrRc := n, tmrCnt := 0#32, tmrPre := 0, tmrEn := true, tmrIen := true }

/-- EXPIRE, where tmr_en = 1 (60_exceptions.md R160): it latches the tick, or records that an earlier one is lost. -/
def expire (s : State) : State :=
  if s.tmrEn then
    if s.tmrIen then { s with tickOverrun := s.tickOverrun || s.tickPending, tickPending := true } else s
  else s

/-- TimerTick() with the compare value rc that the edge sees: the compare is in 33 bits, without wrap
(60_exceptions.md R153, R158). -/
def timerTick (rc : Word) (s : State) : State :=
  if s.tmrCnt.toNat + 1 ≥ rc.toNat then expire { s with tmrCnt := 0#32 }
  else { s with tmrCnt := s.tmrCnt + 1#32 }

/-- The width of tmr_pre: ceil(log2(TIMER_DIV)), at least 1 (10_state.md R21). -/
def preWidth : Nat := max 1 (Nat.clog 2 Config.timerDiv)

/-- One count of the prescaler on a rising edge of clk, while tmr_en = 1 (60_exceptions.md R152). -/
def prescale (rc : Word) (s : State) : State :=
  if s.tmrEn then
    if s.tmrPre = (Config.timerDiv : Nat) - 1 then timerTick rc { s with tmrPre := 0 }
    else { s with tmrPre := (s.tmrPre + 1) % 2 ^ preWidth }
  else s

/-- A rising edge of clk: the response cycle ends (10_state.md R42) and the timer counts (60_exceptions.md R152). -/
def clockEdge (rc : Word) (s : State) : State := prescale rc { s with rspPort := none }

end Sys2Proof.Machine
end

