-- ==== Sys2Proof/Machine/ScanEngine.lean ====
section
/-! DEFINITION. The scan engine: ROWOUT, SWAP, ADVANCE and TICK, the handler the tick interrupt is dispatched to
(40_scan_engine.md R91 to R115; 60_exceptions.md R162, R167, R168). -/

namespace Sys2Proof.Machine

/-- The pin writes of one column: R1 G1 B1 from row r, R2 G2 B2 from row r + 8, then CLK low and high
(40_scan_engine.md R98, R99). -/
def columnWrites (s : State) (b : BitVec 2) (r : BitVec 3) (col : Nat) : List (Pin × Bool) :=
  [(.r1, chanBit (frontCell col r.toNat s) chOffR b),
   (.g1, chanBit (frontCell col r.toNat s) chOffG b),
   (.b1, chanBit (frontCell col r.toNat s) chOffB b),
   (.r2, chanBit (frontCell col (r.toNat + 8) s) chOffR b),
   (.g2, chanBit (frontCell col (r.toNat + 8) s) chOffG b),
   (.b2, chanBit (frontCell col (r.toNat + 8) s) chOffB b),
   (.clk, false), (.clk, true)]

/-- All pin writes of ROWOUT(b, r), in order (40_scan_engine.md R94 to R96, R99, R100). Irreducible, so that no proof unfolds
the 263 writes by accident: cite its lemmas. -/
@[irreducible] def rowoutWrites (s : State) (b : BitVec 2) (r : BitVec 3) : List (Pin × Bool) :=
  [(.a, r.getLsbD 0), (.b, r.getLsbD 1), (.c, r.getLsbD 2), (.oe, true), (.lat, true)]
    ++ (List.range 32).flatMap (columnWrites s b r) ++ [(.lat, false), (.oe, false)]

/-- ROWOUT(b, r) (40_scan_engine.md R94). It writes no cell, so every column reads the front store as it stood at its start
(R102). -/
def rowout (b : BitVec 2) (r : BitVec 3) (s : State) : State := pinWrites (rowoutWrites s b r) s

/-- SWAP(): the roles exchange, the new back store is zero-filled, the request is cleared (40_scan_engine.md R110). -/
def swap (s : State) : State :=
  appendEvent (.swap (1#1 - s.frontSel))
    { zeroStore s.frontSel { s with frontSel := 1#1 - s.frontSel } with pending := false }

/-- ADVANCE(): the cursor step, with SWAP at the frame wrap if one is pending (40_scan_engine.md R104). -/
def advance (s : State) : State :=
  if s.bitIdx < 3#2 then { s with bitIdx := s.bitIdx + 1#2 }
  else if s.rowIdx < 7#3 then { s with bitIdx := 0#2, rowIdx := s.rowIdx + 1#3 }
  else if s.pending then swap { s with bitIdx := 0#2, rowIdx := 0#3 }
  else { s with bitIdx := 0#2, rowIdx := 0#3 }

/-- The body of TICK once it is enabled: acknowledge, TimerLoad, ROWOUT, ADVANCE, in this order
(40_scan_engine.md R91 to R93). -/
def tickBody (s : State) : State :=
  advance (rowout s.bitIdx s.rowIdx (timerLoad (periodTicks s.bitIdx) { s with tickPending := false }))

/-- TICK, the engine's step, enabled exactly when tick_pending = 1 (40_scan_engine.md R90, R91). -/
def tick (s : State) : State := if s.tickPending then tickBody s else s

/-- A TICK whose TimerLoad takes effect on an edge of clk: the edge compares with the tmr_rc from before it, and an expiry of
that edge arms the next TICK (60_exceptions.md R158, R164, R169). -/
def tickOnClk (s : State) : State := if s.tickPending then clockEdge s.tmrRc (tickBody s) else s

end Sys2Proof.Machine
end

