-- ==== Sys2Proof/Machine/PixelCommands.lean ====
section
/-! DEFINITION. The commands on the pixel stores: SETPIXEL and GETPIXEL (41_host_commands.md R123 to R128). -/

namespace Sys2Proof.Machine

/-- SETPIXEL x, y, c (41_host_commands.md R124): held while a swap is pending (R125), silent out of range (R126). -/
def execSetPixel (x y : Int) (c : Color) (s : State) : Host.Outcome State Fault Refusal :=
  if s.pending then .next s
  else if inRange x y then .next (writeBackCell x y c s)
  else .next s

/-- GETPIXEL x, y (41_host_commands.md R127): the back cell zero-extended, or zero out of range (R128). -/
def execGetPixel (x y : Int) (s : State) : Host.Outcome State Fault Refusal :=
  if inRange x y then .next (respond ((backCell x y s).setWidth 32) s)
  else .next (respond 0#32 s)

end Sys2Proof.Machine
end

