-- ==== Sys2Proof/Machine/ControlCommands.lean ====
section
/-! DEFINITION. The other commands: NOP, REFRESH, START, STATUS and the two reserved opcodes (41_host_commands.md R122,
R129 to R136). -/

namespace Sys2Proof.Machine

/-- NOP (41_host_commands.md R122). -/
def execNop (s : State) : Host.Outcome State Fault Refusal := .next s

/-- REFRESH (41_host_commands.md R129): held while a swap is pending (R130). -/
def execRefresh (s : State) : Host.Outcome State Fault Refusal :=
  if s.pending then .next s else .next { s with pending := true }

/-- START (41_host_commands.md R132): without effect while the timer runs (R134). -/
def execStart (s : State) : Host.Outcome State Fault Refusal :=
  if s.tmrEn then .next s else .next (timerStart (periodTicks 0#2) s)

/-- STATUS (41_host_commands.md R135). -/
def execStatus (s : State) : Host.Outcome State Fault Refusal := .next (respond (statusWord s) s)

/-- RSVD(6): CmdFault(6) (41_host_commands.md R136). -/
def execRsvd6 (s : State) : Host.Outcome State Fault Refusal := .next (raiseCmdFault 6#3 s)

/-- RSVD(7): CmdFault(7) (41_host_commands.md R136). -/
def execRsvd7 (s : State) : Host.Outcome State Fault Refusal := .next (raiseCmdFault 7#3 s)

end Sys2Proof.Machine
end

