-- ==== Sys2Proof/Machine/Dispatch.lean ====
section
/-! DEFINITION. Execute(cmd) of 41_host_commands.md R120: one arm per command. -/

namespace Sys2Proof.Machine

def exec (i : Instr) (s : State) : Host.Outcome State Fault Refusal :=
  match i with
  | .nop => Sys2Proof.Machine.execNop s
  | .setPixel x y color => Sys2Proof.Machine.execSetPixel x y color s
  | .getPixel x y => Sys2Proof.Machine.execGetPixel x y s
  | .refresh => Sys2Proof.Machine.execRefresh s
  | .start => Sys2Proof.Machine.execStart s
  | .status => Sys2Proof.Machine.execStatus s
  | .rsvd6 => Sys2Proof.Machine.execRsvd6 s
  | .rsvd7 => Sys2Proof.Machine.execRsvd7 s

end Sys2Proof.Machine
end

