-- ==== Sys2Proof/Machine/Agents.lean ====
section
/-! DEFINITION. The steps of the agents (60_exceptions.md R150): the host's side of the command port, HostStep, the timer,
the engine, and RESET. -/

namespace Sys2Proof.Machine

/-- The host sends a word: any 32-bit word at any time, behind the words it has sent before (60_exceptions.md R179,
10_state.md R40). -/
def sendWord (w : Word) (s : State) : State := { s with hostQueue := s.hostQueue ++ [w] }

/-- The host presents its next word once the port is free; it may not change a word that stands there
(10_state.md R40, 60_exceptions.md R179). -/
def presentWord (s : State) : State :=
  match s.portHead, s.hostQueue with
  | none, w :: ws => { s with portHead := some w, hostQueue := ws }
  | _, _ => s

/-- The word at the port head is held (41_host_commands.md R120). -/
def headHeld (s : State) : Bool :=
  match s.portHead with
  | some w => held (decode w) s
  | none => false

/-- cmd_ready: 0 while the head is held; its value at other times is free (10_state.md R40). DESIGN CHOICE (log 13): the free
value is indexed by the count of free choices, so unheld states with one count have one value; the spec leaves it open in each. -/
def cmdReady (s : State) : Bool := !headHeld s && Config.freeReady s.choices

/-- The executed word leaves the port head (41_host_commands.md R120). -/
def consumeHead : Host.Outcome State Fault Refusal → Host.Outcome State Fault Refusal
  | .next s => .next { s with portHead := none }
  | .fault r => .fault r
  | .refused r => .refused r

/-- HostStep (41_host_commands.md R120): an empty port and a held head have no step. The response cycle of an earlier
command is over before this one is accepted (10_state.md R42). -/
def hostStep (s : State) : Host.Outcome State Fault Refusal :=
  match s.portHead with
  | none => .next s
  | some w =>
    if held (decode w) s then .next s
    else consumeHead (exec (decode w) { s with rspPort := none })

/-- RESET (70_reset_and_hazards.md R180, R181): all of the block at its reset value, the port head discarded, one Reset event.
The environment's script and what was observed before are no state of the block and stay. -/
def resetBlock (s : State) : State :=
  appendEvent .reset { State.reset with
    responses := s.responses, trace := s.trace, hostQueue := s.hostQueue, schedule := s.schedule, choices := s.choices }

/-- The boundary between host commands at the cycle level: a pending TICK comes before the next command
(60_exceptions.md R163). -/
def boundaryStep (s : State) : Host.Outcome State Fault Refusal :=
  if s.tickPending then .next (tick s) else hostStep s

/-- The transition of the mover; where its enabling condition is false it has no step and the block stays as it is
(00_scope.md R15, 60_exceptions.md R150). -/
def takeMove (m : Move) (s : State) : Host.Outcome State Fault Refusal :=
  match m with
  | .send w => .next (sendWord w s)
  | .present => .next (presentWord s)
  | .host => hostStep s
  | .expire => .next (expire s)
  | .clk => .next (clockEdge s.tmrRc s)
  | .tick => .next (tick s)
  | .tickOnClk => .next (tickOnClk s)
  | .boundary => boundaryStep s
  | .reset => .next (resetBlock s)

/-- The mover of the next transition: the schedule's next, or a free choice where it names none (20_memory.md R63). -/
def nextMove (s : State) : Move :=
  match s.schedule with
  | m :: _ => m
  | [] => Config.freeMove s.choices

/-- The choice of the mover is spent. -/
def spendMove (s : State) : State :=
  match s.schedule with
  | _ :: ms => { s with schedule := ms }
  | [] => { s with choices := s.choices + 1 }

/-- A command word stands at the port head and the host moves next: what a fetch is for a block that fetches nothing
(10_state.md R22, R40). -/
def placeWord (w : Word) (s : State) : State :=
  { s with portHead := some w, schedule := .host :: s.schedule }

end Sys2Proof.Machine
end

