-- ==== Sys2Proof/Machine/Step.lean ====
section
/-! DEFINITION. One transition of the block (20_memory.md R58, R62), and the placing of a command word as the next one. -/

namespace Sys2Proof.Machine

/-- One transition: the mover is chosen and takes its step. -/
def step (s : State) : Host.Outcome State Fault Refusal := takeMove (nextMove s) (spendMove s)

/-- The state with the command word w placed so that the very next step executes it. -/
def State.withFetchWord (s : State) (nbits w : Nat) : State := placeWord (tableWord nbits w) s

end Sys2Proof.Machine
end

