-- ==== Sys2Proof/Machine/Assembler.lean ====
section
/-! DEFINITION. The assembler and the disassembler (30_encoding.md R82 to R88), over text as a list of characters: a tool
convention of the spec, by which a host makes command words. -/

namespace Sys2Proof.Machine

/-- Why the assembler refuses a line, which it names (30_encoding.md R83). -/
inductive AsmError where
  /-- No command, directive or pseudo-instruction of R82, R84 with operands of R83. -/
  | badLine (line : Nat)
  /-- An operand outside its range (R83). -/
  | outOfRange (line : Nat)
  deriving DecidableEq, Repr

/-- White space within a line. -/
def asmBlank (ch : Char) : Bool := ch = ' ' || ch = '\t' || ch = '\r'

/-- A text without the white space around it. -/
def asmTrim (cs : List Char) : List Char := ((cs.dropWhile asmBlank).reverse.dropWhile asmBlank).reverse

/-- The value of a hexadecimal digit; decimal digits are those below ten (30_encoding.md R83). -/
def asmDigit (base : Nat) (ch : Char) : Option Nat :=
  let n := ch.toNat
  let v := if 48 ≤ n ∧ n ≤ 57 then n - 48 else if 65 ≤ n ∧ n ≤ 70 then n - 55 else if 97 ≤ n ∧ n ≤ 102 then n - 87 else 99
  if v < base then some v else none

/-- The number that a text of digits spells, after what stands before it. -/
def asmDigits (base : Nat) : Nat → List Char → Option Nat
  | acc, [] => some acc
  | acc, ch :: cs =>
    match asmDigit base ch with
    | some d => asmDigits base (acc * base + d) cs
    | none => none

/-- An operand: decimal with an optional leading minus, or hexadecimal 0x... (30_encoding.md R83). -/
def asmOperand : List Char → Option Int
  | '-' :: ch :: cs => (asmDigits 10 0 (ch :: cs)).map (fun n => -(n : Int))
  | '0' :: 'x' :: ch :: cs => (asmDigits 16 0 (ch :: cs)).map (fun n => (n : Int))
  | ch :: cs => (asmDigits 10 0 (ch :: cs)).map (fun n => (n : Int))
  | [] => none

/-- The parts of a text between its commas (30_encoding.md R82). -/
def asmSplit : List Char → List (List Char)
  | [] => [[]]
  | ch :: cs =>
    if ch = ',' then [] :: asmSplit cs
    else match asmSplit cs with
      | [] => [[ch]]
      | f :: fs => (ch :: f) :: fs

/-- Every part read as an operand. -/
def asmParts : List (List Char) → Option (List Int)
  | [] => some []
  | p :: ps =>
    match asmOperand (asmTrim p), asmParts ps with
    | some n, some ns => some (n :: ns)
    | _, _ => none

/-- The operands after a mnemonic, separated by commas (30_encoding.md R82). -/
def asmOperands (cs : List Char) : Option (List Int) :=
  if asmTrim cs = [] then some [] else asmParts (asmSplit cs)

/-- A color operand, 0..0xFFFF (30_encoding.md R83). -/
def colorEncodable (c : Int) : Bool := decide (0 ≤ c) && decide (c ≤ 65535)

/-- FILL c: SETPIXEL x, y, c for y = 0..15 (outer) and x = 0..31 (inner) (30_encoding.md R84). -/
def fillCommands (c : Color) : List Instr :=
  (List.range 16).flatMap fun (y : Nat) => (List.range 32).map fun (x : Nat) => Instr.setPixel (x : Int) (y : Int) c

/-- The words of a command whose operands were checked, or the refusal that names the line (30_encoding.md R83, R85). -/
def asmCommand (line : Nat) (i : Instr) (colorOk : Bool) : Except AsmError (List Word) :=
  if i.wellFormed && colorOk then .ok [encode i] else .error (.outOfRange line)

/-- One line from its mnemonic in capitals and its operands: commands and .word (30_encoding.md R82), and the expansions
PRESENT, PLOT, FILL and CLEAR (R84). DESIGN CHOICE (log 18): .word takes n in 0..2^32 - 1 and refuses a negative n as out of
range; R82 says only "any 32-bit word", and R83 gives no range for n. -/
def asmMnemonic (line : Nat) (m : List Char) (ops : List Int) : Except AsmError (List Word) :=
  if m = ['N', 'O', 'P'] ∧ ops = [] then .ok [encode .nop]
  else if m = ['R', 'E', 'F', 'R', 'E', 'S', 'H'] ∧ ops = [] then .ok [encode .refresh]
  else if m = ['P', 'R', 'E', 'S', 'E', 'N', 'T'] ∧ ops = [] then .ok [encode .refresh]
  else if m = ['S', 'T', 'A', 'R', 'T'] ∧ ops = [] then .ok [encode .start]
  else if m = ['S', 'T', 'A', 'T', 'U', 'S'] ∧ ops = [] then .ok [encode .status]
  else if m = ['C', 'L', 'E', 'A', 'R'] ∧ ops = [] then .ok ((fillCommands 0#16).map encode)
  else match ops with
    | [x, y, c] =>
      if m = ['S', 'E', 'T', 'P', 'I', 'X', 'E', 'L'] then
        asmCommand line (.setPixel x y (BitVec.ofInt 16 c)) (colorEncodable c)
      else .error (.badLine line)
    | [x, y] =>
      if m = ['G', 'E', 'T', 'P', 'I', 'X', 'E', 'L'] then asmCommand line (.getPixel x y) true
      else if m = ['P', 'L', 'O', 'T'] then asmCommand line (.setPixel x y 0xFFFF#16) true
      else .error (.badLine line)
    | [n] =>
      if m = ['F', 'I', 'L', 'L'] then
        if colorEncodable n then .ok ((fillCommands (BitVec.ofInt 16 n)).map encode) else .error (.outOfRange line)
      else if m = ['.', 'W', 'O', 'R', 'D'] then
        if decide (0 ≤ n) && decide (n < 4294967296) then .ok [BitVec.ofInt 32 n] else .error (.outOfRange line)
      else .error (.badLine line)
    | _ => .error (.badLine line)

/-- One line of text: a comment runs from ';' to its end, mnemonics are case-insensitive (30_encoding.md R82). -/
def assembleLine (line : Nat) (text : List Char) : Except AsmError (List Word) :=
  let body := asmTrim (text.takeWhile (· ≠ ';'))
  if body = [] then .ok []
  else
    match asmOperands (body.dropWhile (fun ch => !asmBlank ch)) with
    | some ops => asmMnemonic line ((body.takeWhile (fun ch => !asmBlank ch)).map Char.toUpper) ops
    | none => .error (.badLine line)

/-- The words of a program text, one command a line, lines numbered from the given number on (30_encoding.md R82). -/
def assembleFrom : Nat → List (List Char) → Except AsmError (List Word)
  | _, [] => .ok []
  | n, l :: ls =>
    match assembleLine n l, assembleFrom (n + 1) ls with
    | .ok ws, .ok rest => .ok (ws ++ rest)
    | .error e, _ => .error e
    | .ok _, .error e => .error e

/-- The capital hexadecimal digit of a value. -/
def hexDigit (n : Nat) : Char := Char.ofNat (if n < 10 then 48 + n else 55 + n)

/-- The last k hexadecimal digits of a number. -/
def hexDigits : Nat → Nat → List Char
  | 0, _ => []
  | k + 1, n => hexDigits k (n / 16) ++ [hexDigit (n % 16)]

/-- A signed decimal operand (30_encoding.md R83). -/
def decimal (n : Int) : List Char :=
  if n < 0 then '-' :: Nat.toDigits 10 n.natAbs else Nat.toDigits 10 n.natAbs

/-- The canonical spelling of a word's command (30_encoding.md R82, R88); a reserved word is spelled .word. DESIGN CHOICE
(log 18): its eight digits are those of the word itself, ignored bits 28:0 included, so that it assembles back to the same word;
R88 does not say which digits, and says too that re-encoding gives the canonical word. -/
def spelling (w : Word) : List Char :=
  match decode w with
  | .nop => ['N', 'O', 'P']
  | .setPixel x y c =>
    ['S', 'E', 'T', 'P', 'I', 'X', 'E', 'L', ' '] ++ decimal x ++ [',', ' '] ++ decimal y ++ [',', ' ', '0', 'x'] ++ hexDigits 4 c.toNat
  | .getPixel x y => ['G', 'E', 'T', 'P', 'I', 'X', 'E', 'L', ' '] ++ decimal x ++ [',', ' '] ++ decimal y
  | .refresh => ['R', 'E', 'F', 'R', 'E', 'S', 'H']
  | .start => ['S', 'T', 'A', 'R', 'T']
  | .status => ['S', 'T', 'A', 'T', 'U', 'S']
  | .rsvd6 => ['.', 'w', 'o', 'r', 'd', ' ', '0', 'x'] ++ hexDigits 8 w.toNat
  | .rsvd7 => ['.', 'w', 'o', 'r', 'd', ' ', '0', 'x'] ++ hexDigits 8 w.toNat

/-- A reserved opcode spells no command (30_encoding.md R78). -/
def isReserved (i : Instr) : Bool := i = .rsvd6 || i = .rsvd7

/-- Disassembly (30_encoding.md R88): a command whose ignored bits are not all zero carries the comment. -/
def disassemble (w : Word) : List Char :=
  if isReserved (decode w) || w &&& ~~~(usedMask (decode w)) = 0#32 then spelling w
  else spelling w ++ [' ', ';', ' ', 'i', 'g', 'n', 'o', 'r', 'e', 'd', ' ', 'b', 'i', 't', 's', ' ', 'n', 'o', 'n', 'z', 'e', 'r', 'o']

end Sys2Proof.Machine
end

