-- ==== Sys2Proof/Safety.lean ====
section
/-! DEFINITION. What counts as a safe run, in the terms claims use: the invariant of the block, what the trace says of it,
the hang, and runs with weak fairness. -/

namespace Sys2Proof.Machine

/-- What holds in every state a run reaches. -/
structure Inv (s : State) : Prop where
  /-- The pixel space keeps its canonical form (20_memory.md R50). -/
  memCanonical : Memory.wf s.mem
  /-- The interrupt is enabled exactly while the timer runs (10_state.md R30). -/
  interruptEnabled : s.tmrIen = s.tmrEn
  /-- A running timer has a period of at least one timer tick (10_state.md R32). -/
  periodPositive : s.tmrEn = true → 1 ≤ s.tmrRc.toNat
  /-- The prescaler counts below TIMER_DIV (10_state.md R33). -/
  prescalerInRange : s.tmrPre < Config.timerDiv
  /-- No tick is due before START (60_exceptions.md R162). -/
  tickNeedsTimer : s.tickPending = true → s.tmrEn = true
  /-- A recorded opcode is a reserved one, and none is recorded without a fault (10_state.md R35). -/
  faultRecord : if s.cmdFault then s.faultOp = 6#3 ∨ s.faultOp = 7#3 else s.faultOp = 0#3
  /-- Between transitions LAT and OE are low: every ROWOUT drops them last (40_scan_engine.md R100). -/
  rowPresented : s.pins.lat = false ∧ s.pins.oe = false
  /-- Before START the engine has not moved: the block is at its reset values but for what commands reach
  (41_host_commands.md R132, 10_state.md R37, 70_reset_and_hazards.md R182). -/
  idleBeforeStart : s.tmrEn = false →
    s.bitIdx = 0#2 ∧ s.rowIdx = 0#3 ∧ s.frontSel = 0#1 ∧ s.pins = Pins.reset ∧ s.tickOverrun = false ∧
      s.tmrCnt = 0#32 ∧ s.tmrPre = 0 ∧ s.tmrRc = 0#32

/-- How many TICKs the trace shows since the last Reset, after n before it: each has one TimerLoad (40_scan_engine.md R91). -/
def ticksAfter : Nat → List Event → Nat
  | n, [] => n
  | n, .timerLoad _ :: es => ticksAfter (n + 1) es
  | _, .reset :: es => ticksAfter 0 es
  | n, .pin _ _ :: es => ticksAfter n es
  | n, .timerStart _ :: es => ticksAfter n es
  | n, .swap _ :: es => ticksAfter n es

/-- The store the trace shows as front, after f before it (00_scope.md R14, 10_state.md R44). -/
def frontAfter : BitVec 1 → List Event → BitVec 1
  | f, [] => f
  | _, .swap st :: es => frontAfter st es
  | _, .reset :: es => frontAfter 0#1 es
  | f, .pin _ _ :: es => frontAfter f es
  | f, .timerStart _ :: es => frontAfter f es
  | f, .timerLoad _ :: es => frontAfter f es

/-- The pin levels the trace shows, after q before it: each pin holds the last level written to it (10_state.md R36, R37). -/
def pinsAfter : Pins → List Event → Pins
  | q, [] => q
  | q, .pin p v :: es => pinsAfter (q.set p v) es
  | _, .reset :: es => pinsAfter Pins.reset es
  | q, .swap _ :: es => pinsAfter q es
  | q, .timerStart _ :: es => pinsAfter q es
  | q, .timerLoad _ :: es => pinsAfter q es

/-- A trace in frames, n TICKs after the last Swap or Reset and with store f in front: the k-th TICK from there loads the
period of plane k mod 4 (40_scan_engine.md R92, R105), and the next Swap comes after whole frames of 32 TICKs, at least one,
and names the other store (R110, R116). -/
def FramedTrace : Nat → BitVec 1 → List Event → Prop
  | _, _, [] => True
  | n, f, .timerLoad v :: es => v = periodTicks (BitVec.ofNat 2 n) ∧ FramedTrace (n + 1) f es
  | n, f, .swap st :: es => 0 < n ∧ n % 32 = 0 ∧ st = 1#1 - f ∧ FramedTrace 0 st es
  | _, _, .reset :: es => FramedTrace 0 0#1 es
  | n, f, .pin _ _ :: es => FramedTrace n f es
  | n, f, .timerStart _ :: es => FramedTrace n f es

/-- What the trace says of the block: the cursor, the role selector and the pins are what the events since Reset make them. -/
structure TraceTells (s : State) : Prop where
  /-- The k-th TICK of a frame is at cursor (k mod 4, k div 4) (40_scan_engine.md R105). -/
  plane : s.bitIdx.toNat = ticksAfter 0 s.trace % 4
  /-- The row-pair is the outer counter (40_scan_engine.md R105). -/
  row : s.rowIdx.toNat = ticksAfter 0 s.trace / 4 % 8
  /-- The front store is the one the last Swap names (00_scope.md R14). -/
  role : s.frontSel = frontAfter 0#1 s.trace
  /-- Each pin holds the last level written to it (10_state.md R36). -/
  levels : s.pins = pinsAfter Pins.reset s.trace
  /-- Periods and swaps stand in frame order (40_scan_engine.md R105, R116). -/
  framed : FramedTrace 0 0#1 s.trace

/-- The hang (60_exceptions.md R171, 70_reset_and_hazards.md R188): a command waits for a swap, and the timer that could
bring one is stopped. -/
def Hang (s : State) : Prop :=
  headHeld s = true ∧ s.tmrEn = false ∧ s.tickPending = false

/-- The cursor's place in the frame: how many TICKs of the frame are done (40_scan_engine.md R105). -/
def framePos (s : State) : Nat := s.rowIdx.toNat * 4 + s.bitIdx.toNat

/-- The edge of clk on which the counter matches (60_exceptions.md R152, R153). -/
def edgeExpires (s : State) : Bool :=
  s.tmrEn && decide (s.tmrPre = (Config.timerDiv : Nat) - 1) && decide (s.tmrCnt.toNat + 1 ≥ s.tmrRc.toNat)

/-- The move m takes an EXPIRE in state s (60_exceptions.md R150, R160). -/
def expiryTaken (m : Move) (s : State) : Bool :=
  match m with
  | .expire => s.tmrEn
  | .clk => edgeExpires s
  | .tickOnClk => s.tickPending && edgeExpires s
  | .send _ => false
  | .present => false
  | .host => false
  | .tick => false
  | .boundary => false
  | .reset => false

/-- The move m takes a TICK in state s (60_exceptions.md R150, R163). -/
def tickTaken (m : Move) (s : State) : Bool :=
  match m with
  | .tick => s.tickPending
  | .tickOnClk => s.tickPending
  | .boundary => s.tickPending
  | .send _ => false
  | .present => false
  | .host => false
  | .expire => false
  | .clk => false
  | .reset => false

/-- Commands executed one after the other (10_state.md R40). -/
def execAll : List Instr → State → Host.Outcome State Fault Refusal
  | [], s => .next s
  | i :: is, s =>
    match exec i s with
    | .next t => execAll is t
    | .fault r => .fault r
    | .refused r => .refused r

/-- An infinite run: the n-th transition is the step of the mover mv n (60_exceptions.md R178: a run has no final state). -/
def IsRun (mv : Nat → Move) (r : Nat → State) : Prop := ∀ n, takeMove (mv n) (r n) = .next (r (n + 1))

/-- Weak fairness of the timer and the engine (60_exceptions.md R177). -/
structure WeaklyFair (mv : Nat → Move) (r : Nat → State) : Prop where
  /-- An EXPIRE that stays enabled is eventually taken. -/
  expiries : ∀ n, (∀ m, n ≤ m → (r m).tmrEn = true) → ∃ m, n ≤ m ∧ expiryTaken (mv m) (r m) = true
  /-- A TICK that stays enabled is eventually taken. -/
  ticks : ∀ n, (∀ m, n ≤ m → (r m).tickPending = true) → ∃ m, n ≤ m ∧ tickTaken (mv m) (r m) = true

end Sys2Proof.Machine
end

