-- ==== Sys2Proof/Certificates/Slice0/Obligations.lean ====
section
/-! DEFINITION. The statements for the provers, from the numbered rules of the spec. -/

open Sys2Proof Sys2Proof.Machine

/-! ### Encoding -/

/-- Nine words written out in 30_encoding.md R86 and R87, for the rows SETPIXEL (four), GETPIXEL, REFRESH, START, STATUS and
RSVD(6), decode to the commands named there; one of them also as an opcode-table word and one as bytes in the order of R55. The
rows NOP and RSVD(7) have no word in those two rules. -/
def Obligations.WorkedWordsDecode : Prop :=
  decode 0x2000FFFF#32 = .setPixel 0 0 0xFFFF#16 ∧
  decode 0x27CF1234#32 = .setPixel 31 15 0x1234#16 ∧
  decode 0x3FC0FFFF#32 = .setPixel (-1) 0 0xFFFF#16 ∧
  decode 0x203FFFFF#32 = .setPixel 0 (-1) 0xFFFF#16 ∧
  decode 0x4149FFFF#32 = .getPixel 5 9 ∧
  decode 0x6ABCDEF0#32 = .refresh ∧
  decode 0x80000000#32 = .start ∧
  decode 0xA0000000#32 = .status ∧
  decode 0xDEADBEEF#32 = .rsvd6 ∧
  decodeTableWord 32 0x27CF1234 = some (.setPixel 31 15 0x1234#16) ∧
  decodeBytes [0xFF#8, 0xFF#8, 0xC0#8, 0x3F#8] = .ok (.setPixel (-1) 0 0xFFFF#16, [])

/-- 30_encoding.md R85: for every in-range operand tuple, decoding the encoded command gives back the same command and
operands. -/
def Obligations.DecodeGivesBackEveryEncodedCommand : Prop :=
  ∀ i : Instr, i.wellFormed = true → decode (encode i) = i

/-- 30_encoding.md R77, R88: the word encoded again from what was decoded is the canonical word, which differs from the
original only in the ignored bits, now zero; and what is decoded is always encodable. -/
def Obligations.EncodingADecodedWordClearsIgnoredBits : Prop :=
  ∀ w : Word, (decode w).wellFormed = true ∧ encode (decode w) = w &&& usedMask (decode w)

/-- 30_encoding.md R71, R72, R80: every word decodes to exactly one row, by OP, with the operands read from X, Y and COLOR by
the sign formulas of R73 and R74. -/
def Obligations.DecodeReadsTheFields : Prop :=
  ∀ w : Word,
    let n := w.toNat
    let x : Int := ((n / 2 ^ 22 % 128 : Nat) : Int) - 128 * ((n / 2 ^ 28 % 2 : Nat) : Int)
    let y : Int := ((n / 2 ^ 16 % 64 : Nat) : Int) - 64 * ((n / 2 ^ 21 % 2 : Nat) : Int)
    n / 2 ^ 29 < 8 ∧
    (n / 2 ^ 29 = 0 → decode w = .nop) ∧
    (n / 2 ^ 29 = 1 → decode w = .setPixel x y (BitVec.ofNat 16 (n % 2 ^ 16))) ∧
    (n / 2 ^ 29 = 2 → decode w = .getPixel x y) ∧
    (n / 2 ^ 29 = 3 → decode w = .refresh) ∧
    (n / 2 ^ 29 = 4 → decode w = .start) ∧
    (n / 2 ^ 29 = 5 → decode w = .status) ∧
    (n / 2 ^ 29 = 6 → decode w = .rsvd6) ∧
    (n / 2 ^ 29 = 7 → decode w = .rsvd7)

/-- 30_encoding.md R76: the block does not read an ignored field; any value there decodes to the same command. -/
def Obligations.IgnoredFieldsDecodeAlike : Prop :=
  ∀ w w' : Word, w &&& usedMask (decode w) = w' &&& usedMask (decode w) → decode w' = decode w

/-- 30_encoding.md R84: FILL c is 512 SETPIXELs, rows outer and columns inner, and executing them on a state with no swap
pending leaves every cell of the back store at c, the front store and everything else as before. -/
def Obligations.FillPaintsTheBackStore : Prop :=
  ∀ c : Color,
    (fillCommands c).length = 512 ∧
    (∀ k, k < 512 → (fillCommands c)[k]? = some (Instr.setPixel ((k % 32 : Nat) : Int) ((k / 32 : Nat) : Int) c)) ∧
    ∀ s : State, Memory.wf s.mem → s.pending = false →
      ∃ t, execAll (fillCommands c) s = .next t ∧ t = { s with mem := t.mem } ∧
        ∀ j, j < 512 → pixRead (backStore s) j t = c ∧ pixRead s.frontSel j t = pixRead s.frontSel j s

/-- 30_encoding.md R83: the assembler makes one word of a command whose operands are in range, and otherwise refuses it and
names the line. -/
def Obligations.AssemblerRefusesWhatDoesNotFit : Prop :=
  ∀ (line : Nat) (x y c : Int),
    (-64 ≤ x ∧ x ≤ 63 ∧ -32 ≤ y ∧ y ≤ 31 ∧ 0 ≤ c ∧ c ≤ 0xFFFF →
      ∃ w, asmMnemonic line ['S', 'E', 'T', 'P', 'I', 'X', 'E', 'L'] [x, y, c] = .ok [w] ∧
        decode w = .setPixel x y (BitVec.ofInt 16 c)) ∧
    (¬(-64 ≤ x ∧ x ≤ 63 ∧ -32 ≤ y ∧ y ≤ 31 ∧ 0 ≤ c ∧ c ≤ 0xFFFF) →
      asmMnemonic line ['S', 'E', 'T', 'P', 'I', 'X', 'E', 'L'] [x, y, c] = .error (.outOfRange line))

/-! ### Host commands -/

/-- 41_host_commands.md R122: NOP, any word with OP = 000, leaves the state unchanged, is never held, and gives no response. -/
def Obligations.NopLeavesTheStateUnchanged : Prop :=
  (∀ w : Word, w &&& 0xE0000000#32 = 0x00000000#32 → decode w = .nop) ∧ decode 0#32 = .nop ∧
  ∀ s : State, held .nop s = false ∧ exec .nop s = .next s

/-- 41_host_commands.md R124, R126: SETPIXEL. With no swap pending and in-range coordinates it answers a next state in which
the one back cell at (1 - front_sel) * 512 + y * 32 + x reads c and every other cell and everything else is as before; out of
range it answers the same state; with a swap pending it is held; doing it twice is doing it once. That exec of the held command
answers the same state is the model's choice for the rule's Hold (log 11). -/
def Obligations.SetPixelWritesOneBackCell : Prop :=
  (∀ w : Word, w &&& 0xE0000000#32 = 0x20000000#32 → decode w = .setPixel (xOperand w) (yOperand w) (colorField w)) ∧
  (∀ (x y : Int) (c : Color) (s : State), s.pending = true →
    held (.setPixel x y c) s = true ∧ exec (.setPixel x y c) s = .next s) ∧
  (∀ (x y : Int) (c : Color) (s : State), s.pending = false → ¬(0 ≤ x ∧ x < 32 ∧ 0 ≤ y ∧ y < 16) →
    held (.setPixel x y c) s = false ∧ exec (.setPixel x y c) s = .next s) ∧
  (∀ (x y : Int) (c : Color) (s : State), Memory.wf s.mem → s.pending = false → 0 ≤ x ∧ x < 32 ∧ 0 ≤ y ∧ y < 16 →
    held (.setPixel x y c) s = false ∧
    ∃ t, exec (.setPixel x y c) s = .next t ∧ t = { s with mem := t.mem } ∧ Memory.wf t.mem ∧
      exec (.setPixel x y c) t = .next t ∧
      ∀ a, t.mem.read a =
        if a = (1 - s.frontSel.toNat) * 512 + (y.toNat * 32 + x.toNat) then c else s.mem.read a)

/-- 41_host_commands.md R127: GETPIXEL answers one response, the back cell zero-extended, or 0 out of range, and changes
nothing else; right after a SWAP it answers 0 for every in-range cell. That the response also stands on the response port is
the model's form of 10_state.md R42 (log 6). -/
def Obligations.GetPixelAnswersTheBackCell : Prop :=
  (∀ w : Word, w &&& 0xE0000000#32 = 0x40000000#32 → decode w = .getPixel (xOperand w) (yOperand w)) ∧
  (∀ (x y : Int) (s : State), held (.getPixel x y) s = false) ∧
  (∀ (x y : Int) (s : State), 0 ≤ x ∧ x < 32 ∧ 0 ≤ y ∧ y < 16 →
    ∃ v : Word, v.toNat = (s.mem.read ((1 - s.frontSel.toNat) * 512 + (y.toNat * 32 + x.toNat))).toNat ∧
      exec (.getPixel x y) s = .next { s with responses := s.responses ++ [v], rspPort := some v }) ∧
  (∀ (x y : Int) (s : State), ¬(0 ≤ x ∧ x < 32 ∧ 0 ≤ y ∧ y < 16) →
    exec (.getPixel x y) s = .next { s with responses := s.responses ++ [0#32], rspPort := some 0#32 }) ∧
  (∀ (x y : Int) (s t : State), Memory.wf s.mem → exec (.getPixel x y) (swap s) = .next t →
    t.responses = s.responses ++ [0#32])

/-- 41_host_commands.md R137: a SETPIXEL and then a GETPIXEL of the same in-range coordinates answers the color, whatever
other commands run between that are no SETPIXEL of those coordinates (host commands run no SWAP). Where one of them is held as
it runs, that exec answers the same state, and so that the list goes on past it, is the model's choice (log 11): at the port no
later word passes a held one. -/
def Obligations.SetThenGetAnswersTheColor : Prop :=
  ∀ (x y : Int) (c : Color) (is : List Instr) (s : State), Memory.wf s.mem → s.pending = false →
    0 ≤ x ∧ x < 32 ∧ 0 ≤ y ∧ y < 16 → (∀ c', Instr.setPixel x y c' ∉ is) →
    ∃ t u v, exec (.setPixel x y c) s = .next t ∧ execAll is t = .next u ∧ exec (.getPixel x y) u = .next v ∧
      v.responses = u.responses ++ [c.setWidth 32]

/-- 41_host_commands.md R129: REFRESH sets pending where it is 0, the timer running or not, and changes nothing else; while
pending it is held. With the timer stopped and no tick due, no step but RESET honours the request (R131).
That exec of the held command answers the same state is the model's choice for the rule's Hold (log 11). -/
def Obligations.RefreshSetsPending : Prop :=
  (∀ w : Word, w &&& 0xE0000000#32 = 0x60000000#32 → decode w = .refresh) ∧
  (∀ s : State, s.pending = false → held .refresh s = false ∧ exec .refresh s = .next { s with pending := true }) ∧
  (∀ s : State, s.pending = true → held .refresh s = true ∧ exec .refresh s = .next s) ∧
  (∀ s t : State, s.pending = true → s.tmrEn = false → s.tickPending = false → nextMove s ≠ .reset → step s = .next t →
    t.pending = true ∧ t.frontSel = s.frontSel ∧ t.tickPending = false)

/-- 41_host_commands.md R132: START starts a stopped timer at the period of plane 0 and leaves a running one alone; it is
never held, and it touches neither the cursor nor pending nor the stores. -/
def Obligations.StartStartsAStoppedTimer : Prop :=
  (∀ w : Word, w &&& 0xE0000000#32 = 0x80000000#32 → decode w = .start) ∧
  (∀ s : State, held .start s = false) ∧
  (∀ s : State, s.tmrEn = false →
    exec .start s = .next { s with
      tmrRc := periodTicks 0#2, tmrCnt := 0#32, tmrPre := 0, tmrEn := true, tmrIen := true,
      trace := s.trace ++ [.timerStart (periodTicks 0#2)] }) ∧
  (∀ s : State, s.tmrEn = true → exec .start s = .next s)

/-- 10_state.md R38, 41_host_commands.md R135: STATUS answers one word whose fields are the registers of R38, bits 31:15
zero, clears nothing and is never held. That the response also stands on the response port is the model's form of R42
(log 6). -/
def Obligations.StatusAnswersTheFlagWord : Prop :=
  (∀ w : Word, w &&& 0xE0000000#32 = 0xA0000000#32 → decode w = .status) ∧
  ∀ s : State, held .status s = false ∧
    ∃ v : Word, exec .status s = .next { s with responses := s.responses ++ [v], rspPort := some v } ∧
      v.getLsbD 0 = s.pending ∧ v.getLsbD 1 = s.tmrEn ∧ v.getLsbD 2 = s.tmrIen ∧ v.getLsbD 3 = s.cmdFault ∧
      v.extractLsb' 4 3 = s.faultOp ∧ v.getLsbD 7 = s.tickOverrun ∧ v.extractLsb' 8 2 = s.bitIdx ∧
      v.extractLsb' 10 3 = s.rowIdx ∧ v.extractLsb' 13 1 = s.frontSel ∧ v.getLsbD 14 = s.tickPending ∧
      v.extractLsb' 15 17 = 0#17

/-- 30_encoding.md R78, 41_host_commands.md R136: every word with OP 6 or 7 raises CmdFault: the flag is set, the opcode is
recorded if the flag was clear, and nothing else changes, no response is given; it is never held, and the host's step consumes
it. -/
def Obligations.ReservedOpcodeRaisesCmdFault : Prop :=
  (∀ w : Word, w &&& 0xE0000000#32 = 0xC0000000#32 → decode w = .rsvd6) ∧
  (∀ w : Word, w &&& 0xE0000000#32 = 0xE0000000#32 → decode w = .rsvd7) ∧
  (∀ s : State, held .rsvd6 s = false ∧
    exec .rsvd6 s = .next { s with cmdFault := true, faultOp := if s.cmdFault = true then s.faultOp else 6#3 }) ∧
  (∀ s : State, held .rsvd7 s = false ∧
    exec .rsvd7 s = .next { s with cmdFault := true, faultOp := if s.cmdFault = true then s.faultOp else 7#3 }) ∧
  (∀ (s : State) (w : Word), s.portHead = some w → (opField w = 6#3 ∨ opField w = 7#3) →
    ∃ t, hostStep s = .next t ∧ t.portHead = none ∧ t.responses = s.responses ∧ t.cmdFault = true ∧
      t.faultOp = if s.cmdFault = true then s.faultOp else opField w)

/-- 41_host_commands.md R120: where the host moves next and a word stands at the port head, the step is Execute of the
decoded command, and the word then leaves the head; where the command is held, or no word stands there, the step changes
nothing. That the response port is cleared at acceptance is the model's form of 10_state.md R42 (log 6); that the move is spent, and that
a held or empty head still gives a step, is the model's choice (log 1, log 11). -/
def Obligations.HostStepExecutesTheDecodedWord : Prop :=
  (∀ (i : Instr) (s : State),
    held i s = true ↔ ((∃ x y c, i = .setPixel x y c) ∨ i = .refresh) ∧ s.pending = true) ∧
  ∀ (s : State) (ms : List Move), s.schedule = .host :: ms →
    (s.portHead = none → step s = .next { s with schedule := ms }) ∧
    ∀ w, s.portHead = some w →
      (held (decode w) s = true → step s = .next { s with schedule := ms }) ∧
      (held (decode w) s = false → ∀ t, exec (decode w) { s with schedule := ms, rspPort := none } = .next t →
        step s = .next { t with portHead := none })

/-- 10_state.md R42: each GETPIXEL and each STATUS produces exactly one response word, and no other command produces one. -/
def Obligations.OnlyReadCommandsRespond : Prop :=
  ∀ (i : Instr) (s t : State), exec i s = .next t →
    (((∃ x y, i = .getPixel x y) ∨ i = .status) → ∃ v, t.responses = s.responses ++ [v]) ∧
    (¬((∃ x y, i = .getPixel x y) ∨ i = .status) → t.responses = s.responses)

/-- 41_host_commands.md R121: no command advances the cursor, writes front_sel, writes the front store or touches the pins or
the tick flags; START is the only command that touches the timer or the trace. -/
def Obligations.CommandsLeaveTheEngineAlone : Prop :=
  ∀ (i : Instr) (s t : State), exec i s = .next t →
    t.bitIdx = s.bitIdx ∧ t.rowIdx = s.rowIdx ∧ t.frontSel = s.frontSel ∧ t.pins = s.pins ∧
    t.tickPending = s.tickPending ∧ t.tickOverrun = s.tickOverrun ∧
    (∀ j, j < 512 → pixRead s.frontSel j t = pixRead s.frontSel j s) ∧
    (i ≠ .start → t.tmrEn = s.tmrEn ∧ t.tmrIen = s.tmrIen ∧ t.tmrCnt = s.tmrCnt ∧ t.tmrPre = s.tmrPre ∧
      t.tmrRc = s.tmrRc ∧ t.trace = s.trace)

/-- 10_state.md R39, 41_host_commands.md R121: no command reads the front store. Two states that differ only in front cells
answer alike: the same state but for the pixel space, whose back cells again agree. -/
def Obligations.CommandsNeverReadTheFrontStore : Prop :=
  ∀ (i : Instr) (s t : State) (m : Memory), Memory.wf s.mem → Memory.wf m →
    (∀ j, j < 512 → m.read (pixAddr (backStore s) j) = pixRead (backStore s) j s) → exec i s = .next t →
    ∃ t', exec i { s with mem := m } = .next t' ∧ t' = { t with mem := t'.mem } ∧
      ∀ j, j < 512 → pixRead (backStore s) j t' = pixRead (backStore s) j t

/-! ### Scan engine -/

/-- 40_scan_engine.md R91: a TICK that is due clears tick_pending, loads the period of the plane at its start, and appends
TimerLoad, the 263 Pin events of ROWOUT at that cursor, and at (3,7) with a swap pending the Swap event, in this order; the
pins are those of ROWOUT, the cursor moves one place on, and the pixel space, the roles and pending change only with SWAP; the
counter, the overrun and fault flags, the responses and the port are left. Where none is due it has no step. That the move is spent is the
model's schedule (log 1). -/
def Obligations.TickOutputsOneRowPair : Prop :=
  ∀ (s : State) (ms : List Move), s.schedule = .tick :: ms →
    (s.tickPending = false → step s = .next { s with schedule := ms }) ∧
    (s.tickPending = true → ∃ t, step s = .next t ∧
      t.tickPending = false ∧ t.tmrRc = periodTicks s.bitIdx ∧ t.tmrIen = true ∧
      framePos t = (framePos s + 1) % 32 ∧
      (∃ evs : List Event, evs.length = 263 ∧ (∀ e ∈ evs, ∃ p v, e = .pin p v) ∧
        (rowout s.bitIdx s.rowIdx s).trace = s.trace ++ evs ∧
        t.trace = s.trace ++ [.timerLoad (periodTicks s.bitIdx)] ++ evs ++
          (if framePos s = 31 ∧ s.pending = true then [.swap (1#1 - s.frontSel)] else [])) ∧
      t.tmrEn = s.tmrEn ∧ t.tmrCnt = s.tmrCnt ∧ t.tmrPre = s.tmrPre ∧ t.tickOverrun = s.tickOverrun ∧
      t.cmdFault = s.cmdFault ∧ t.faultOp = s.faultOp ∧ t.responses = s.responses ∧ t.rspPort = s.rspPort ∧
      t.portHead = s.portHead ∧ t.hostQueue = s.hostQueue ∧ t.schedule = ms ∧ t.choices = s.choices ∧
      t.pins = (rowout s.bitIdx s.rowIdx s).pins ∧
      (framePos s = 31 ∧ s.pending = true →
        t.mem = (swap s).mem ∧ t.frontSel = 1#1 - s.frontSel ∧ t.pending = false) ∧
      (¬(framePos s = 31 ∧ s.pending = true) →
        t.mem = s.mem ∧ t.frontSel = s.frontSel ∧ t.pending = s.pending))

/-- 40_scan_engine.md R94, R95, R96, R99, R100: the 263 events of ROWOUT one by one: A, B, C; OE and LAT high; for each of
the 32 columns R1 G1 B1 R2 G2 B2 from the front cells of rows r and r + 8 at the bits of plane b, CLK low, CLK high; LAT low,
OE low. Only the pins and the trace change. -/
def Obligations.RowoutEventsInOrder : Prop :=
  ∀ (b : BitVec 2) (r : BitVec 3) (s : State),
    let up (col : Nat) : Color := s.mem.read (s.frontSel.toNat * 512 + (r.toNat * 32 + col))
    let lo (col : Nat) : Color := s.mem.read (s.frontSel.toNat * 512 + ((r.toNat + 8) * 32 + col))
    ∃ t, rowout b r s = t ∧ t = { s with pins := t.pins, trace := t.trace } ∧
    ∃ evs : List Event, t.trace = s.trace ++ evs ∧ evs.length = 263 ∧
      evs.take 5 = [.pin .a (r.getLsbD 0), .pin .b (r.getLsbD 1), .pin .c (r.getLsbD 2), .pin .oe true, .pin .lat true] ∧
      (∀ col : Nat, col < 32 →
        (evs.drop (5 + 8 * col)).take 8 =
          [.pin .r1 ((up col).getLsbD (12 + b.toNat)), .pin .g1 ((up col).getLsbD (7 + b.toNat)),
           .pin .b1 ((up col).getLsbD (1 + b.toNat)), .pin .r2 ((lo col).getLsbD (12 + b.toNat)),
           .pin .g2 ((lo col).getLsbD (7 + b.toNat)), .pin .b2 ((lo col).getLsbD (1 + b.toNat)),
           .pin .clk false, .pin .clk true]) ∧
      evs.drop 261 = [.pin .lat false, .pin .oe false]

/-- 40_scan_engine.md R101: the levels the pins hold after a ROWOUT: the row address, OE and LAT low, CLK high, and the
channel bits of column 31. -/
def Obligations.RowoutLeavesTheLastColumnLevels : Prop :=
  ∀ (b : BitVec 2) (r : BitVec 3) (s : State),
    let up : Color := s.mem.read (s.frontSel.toNat * 512 + (r.toNat * 32 + 31))
    let lo : Color := s.mem.read (s.frontSel.toNat * 512 + ((r.toNat + 8) * 32 + 31))
    (rowout b r s).pins =
      { a := r.getLsbD 0, b := r.getLsbD 1, c := r.getLsbD 2, oe := false, lat := false, clk := true,
        r1 := up.getLsbD (12 + b.toNat), g1 := up.getLsbD (7 + b.toNat), b1 := up.getLsbD (1 + b.toNat),
        r2 := lo.getLsbD (12 + b.toNat), g2 := lo.getLsbD (7 + b.toNat), b2 := lo.getLsbD (1 + b.toNat) }

/-- 40_scan_engine.md R97: the channel bit is the cell shifted right by offset + plane + 1, its lowest bit; the offsets are
11, 6 and 0. Which channel has which offset is the spec's own choice (its mark: from general knowledge, decision D12). -/
def Obligations.ChannelBitIsTheShiftedBit : Prop :=
  (∀ (c : Color) (o : Nat) (b : BitVec 2),
    chanBit c o b = decide ((c >>> (o + b.toNat + 1)) &&& 1#16 = 1#16)) ∧
  ∀ (c : Color) (b : BitVec 2),
    chanBit c chOffR b = c.getLsbD (12 + b.toNat) ∧ chanBit c chOffG b = c.getLsbD (7 + b.toNat) ∧
    chanBit c chOffB b = c.getLsbD (1 + b.toNat)

/-- 40_scan_engine.md R103: bits 0, 5, 6 and 11 of a cell never affect a pin. Front stores that agree on the other twelve
bits of every cell give the same pin events and levels. -/
def Obligations.HeadroomBitsNeverReachAPin : Prop :=
  ∀ (b : BitVec 2) (r : BitVec 3) (s : State) (m : Memory),
    (∀ j, j < 512 → m.read (pixAddr s.frontSel j) &&& 0xF79E#16 = pixRead s.frontSel j s &&& 0xF79E#16) →
    (rowout b r { s with mem := m }).trace = (rowout b r s).trace ∧
    (rowout b r { s with mem := m }).pins = (rowout b r s).pins

/-- 40_scan_engine.md R102, R118: what the panel shows never depends on the back store. A TICK on front stores that agree
appends the same events, sets the same pins and takes the cursor, the roles and pending the same way. -/
def Obligations.TickNeverReadsTheBackStore : Prop :=
  ∀ (s : State) (m : Memory), (∀ j, j < 512 → m.read (pixAddr s.frontSel j) = pixRead s.frontSel j s) →
    ∃ t t', takeMove .tick s = .next t ∧ takeMove .tick { s with mem := m } = .next t' ∧
      t' = { t with mem := t'.mem }

/-- 40_scan_engine.md R104: ADVANCE takes the cursor one place on in the frame of 32, and runs SWAP exactly at the wrap with
a swap pending; else only the cursor changes. -/
def Obligations.AdvanceStepsTheCursor : Prop :=
  ∀ s : State,
    framePos (advance s) = (framePos s + 1) % 32 ∧
    ((framePos s = 31 ∧ s.pending = true) → advance s = swap { s with bitIdx := 0#2, rowIdx := 0#3 }) ∧
    (¬(framePos s = 31 ∧ s.pending = true) →
      advance s = { s with bitIdx := (advance s).bitIdx, rowIdx := (advance s).rowIdx })

/-- 40_scan_engine.md R105: from the start of a frame, the k-th TICK is at cursor (k mod 4, k div 4), whatever the expiries
between the TICKs. -/
def Obligations.FrameVisitsEveryCursorInOrder : Prop :=
  ∀ (s : State) (k : Nat), s.bitIdx = 0#2 → s.rowIdx = 0#3 →
    ((fun u => tickBody (expire u))^[k] s).bitIdx.toNat = k % 4 ∧
    ((fun u => tickBody (expire u))^[k] s).rowIdx.toNat = k / 4 % 8

/-- 40_scan_engine.md R110, R111, R114, R115: SWAP exchanges the roles, zero-fills the store that was front, leaves the store
that becomes front as the host wrote it, clears pending and appends one Swap event; the canonical form is kept and nothing
else changes. -/
def Obligations.SwapBlanksTheOldFront : Prop :=
  ∀ s : State, Memory.wf s.mem →
    (swap s).frontSel = ~~~s.frontSel ∧ (swap s).pending = false ∧
    (swap s).trace = s.trace ++ [.swap (swap s).frontSel] ∧ Memory.wf (swap s).mem ∧
    (∀ j, j < 512 → pixRead s.frontSel j (swap s) = 0#16 ∧
      pixRead (swap s).frontSel j (swap s) = pixRead (backStore s) j s) ∧
    swap s = { s with mem := (swap s).mem, frontSel := (swap s).frontSel, pending := false, trace := (swap s).trace }

/-- 10_state.md R24, R26, 40_scan_engine.md R106, R113: but for RESET, a step changes front_sel or clears pending only in the
TICK of cursor (3,7) with a swap pending, and then it does both. -/
def Obligations.SwapOnlyAtTheFrameWrap : Prop :=
  ∀ s t : State, step s = .next t → nextMove s ≠ .reset →
    (t.frontSel ≠ s.frontSel ∨ (s.pending = true ∧ t.pending = false)) →
    tickTaken (nextMove s) s = true ∧ framePos s = 31 ∧ s.pending = true ∧
      t.pending = false ∧ t.frontSel = 1#1 - s.frontSel ∧ framePos t = 0

/-- 20_memory.md R53: a step changes a cell only as SETPIXEL of that back cell, as the zero-fill of the old front by SWAP, or
as RESET. -/
def Obligations.CellsChangeOnlyByTheirWriters : Prop :=
  ∀ (s t : State) (a : Nat), Memory.wf s.mem → step s = .next t → t.mem.read a ≠ s.mem.read a →
    (∃ w x y c, (nextMove s = .host ∨ nextMove s = .boundary) ∧ s.portHead = some w ∧
      decode w = .setPixel x y c ∧ s.pending = false ∧ 0 ≤ x ∧ x < 32 ∧ 0 ≤ y ∧ y < 16 ∧
      a = (1 - s.frontSel.toNat) * 512 + (y.toNat * 32 + x.toNat) ∧ t.mem.read a = c) ∨
    (tickTaken (nextMove s) s = true ∧ framePos s = 31 ∧ s.pending = true ∧
      s.frontSel.toNat * 512 ≤ a ∧ a < s.frontSel.toNat * 512 + 512 ∧ t.mem.read a = 0#16) ∨
    (nextMove s = .reset ∧ t.mem.read a = 0#16)

/-- 10_state.md R27, R28: bit_idx and row_idx keep their value in every step but RESET and a TICK, which moves the cursor one
place on. -/
def Obligations.CursorMovesOnlyByTick : Prop :=
  ∀ s t : State, step s = .next t → nextMove s ≠ .reset →
    (tickTaken (nextMove s) s = false → t.bitIdx = s.bitIdx ∧ t.rowIdx = s.rowIdx) ∧
    (tickTaken (nextMove s) s = true → framePos t = (framePos s + 1) % 32)

/-! ### Timer and interrupt -/

/-- 60_exceptions.md R160: EXPIRE latches one tick while the timer runs and the interrupt is enabled; one that finds the
latch set is merged and recorded as an overrun, so that two EXPIREs give one TICK. Where tmr_en = 0 it has no step. -/
def Obligations.ExpireLatchesOneTick : Prop :=
  (∀ s : State, s.tmrEn = false → expire s = s) ∧
  (∀ s : State, s.tmrEn = true → s.tmrIen = false → expire s = s) ∧
  (∀ s : State, s.tmrEn = true → s.tmrIen = true →
    expire s = { s with tickPending := true, tickOverrun := s.tickOverrun || s.tickPending } ∧
    (expire (expire s)).tickOverrun = true ∧
    (tick (expire (expire s))).tickPending = false ∧
    tick (tick (expire (expire s))) = tick (expire (expire s)))

/-- 60_exceptions.md R157: TimerLoad(n) writes tmr_rc, keeps the interrupt enabled and appends its event; tmr_cnt, tmr_pre and
all else stay. -/
def Obligations.TimerLoadLeavesTheCount : Prop :=
  ∀ (n : Word) (s : State),
    timerLoad n s = { s with tmrRc := n, tmrIen := true, trace := s.trace ++ [.timerLoad n] }

/-- 60_exceptions.md R152: the prescaler. With tmr_en = 1 and the count in its range it wraps at TIMER_DIV - 1 with a timer
tick and else counts one on; with tmr_en = 0 prescaler and counter hold. -/
def Obligations.PrescalerDividesTheClock : Prop :=
  ∀ (rc : Word) (s : State),
    (s.tmrEn = false → prescale rc s = s) ∧
    (s.tmrEn = true → s.tmrPre < Config.timerDiv →
      prescale rc s =
        if s.tmrPre + 1 = Config.timerDiv then timerTick rc { s with tmrPre := 0 }
        else { s with tmrPre := s.tmrPre + 1 })

/-- 60_exceptions.md R153: the counter step, and that an interval whose compare value is n lasts exactly n timer ticks: from
count 0 no expiry is raised before the n-th tick, which restarts the count and raises one. -/
def Obligations.IntervalLastsItsCompareValue : Prop :=
  (∀ s : State,
    (s.tmrRc.toNat ≤ s.tmrCnt.toNat + 1 → timerTick s.tmrRc s = expire { s with tmrCnt := 0#32 }) ∧
    (s.tmrCnt.toNat + 1 < s.tmrRc.toNat → timerTick s.tmrRc s = { s with tmrCnt := s.tmrCnt + 1#32 })) ∧
  ∀ s : State, s.tmrEn = true → s.tmrIen = true → s.tmrCnt = 0#32 → 1 ≤ s.tmrRc.toNat →
    (∀ k, k < s.tmrRc.toNat →
      ((timerTick s.tmrRc)^[k] s).tickPending = s.tickPending ∧ ((timerTick s.tmrRc)^[k] s).tmrCnt.toNat = k) ∧
    ((timerTick s.tmrRc)^[s.tmrRc.toNat] s).tickPending = true ∧
    ((timerTick s.tmrRc)^[s.tmrRc.toNat] s).tmrCnt = 0#32

/-- 60_exceptions.md R152, R153: in clocks, the first expiry after a start of the interval comes with edge
tmr_rc * TIMER_DIV, and none before. -/
def Obligations.ExpiryComesAfterPeriodTimesDivEdges : Prop :=
  ∀ s : State, s.tmrEn = true → s.tmrIen = true → s.tmrPre = 0 → s.tmrCnt = 0#32 → 1 ≤ s.tmrRc.toNat →
    s.tickPending = false →
    (∀ k, k < s.tmrRc.toNat * Config.timerDiv → ((fun u => clockEdge u.tmrRc u)^[k] s).tickPending = false) ∧
    ((fun u => clockEdge u.tmrRc u)^[s.tmrRc.toNat * Config.timerDiv] s).tickPending = true ∧
    ((fun u => clockEdge u.tmrRc u)^[s.tmrRc.toNat * Config.timerDiv] s).tmrCnt = 0#32 ∧
    ((fun u => clockEdge u.tmrRc u)^[s.tmrRc.toNat * Config.timerDiv] s).tmrPre = 0

/-- 60_exceptions.md R158, R164, R169: a load below the count reached expires with the next timer tick; a load on the edge of
a match leaves the match to the old compare value, and the expiry arms the TICK after this one. The one-edge form is the
model's reading (log 8). -/
def Obligations.LateAndSameEdgeLoads : Prop :=
  (∀ (n : Word) (s : State), s.tmrEn = true → n.toNat ≤ s.tmrCnt.toNat + 1 →
    (timerTick (timerLoad n s).tmrRc (timerLoad n s)).tickPending = true ∧
    (timerTick (timerLoad n s).tmrRc (timerLoad n s)).tmrCnt = 0#32) ∧
  (∀ s : State, s.tmrEn = true → s.tickPending = true → s.tmrPre + 1 = Config.timerDiv →
    s.tmrRc.toNat ≤ s.tmrCnt.toNat + 1 →
    (tickOnClk s).tickPending = true ∧ (tickOnClk s).tickOverrun = s.tickOverrun ∧ (tickOnClk s).tmrCnt = 0#32 ∧
      (tickOnClk s).tmrRc = periodTicks s.bitIdx) ∧
  (∀ s : State, s.tmrEn = true → s.tickPending = true → s.tmrPre + 1 = Config.timerDiv →
    s.tmrCnt.toNat + 1 < s.tmrRc.toNat →
    (tickOnClk s).tickPending = false ∧ (tickOnClk s).tmrCnt = s.tmrCnt + 1#32 ∧
      (tickOnClk s).tmrRc = periodTicks s.bitIdx)

/-- 60_exceptions.md R155: Quantize rounds us * TIMER_CLK_HZ / DIVN to the nearest integer, a tie up, and clamps it to
[1, 2^32 - 1]; PERIOD_TICKS[b] is Quantize(BASE_PERIOD_US * 2^b). -/
def Obligations.QuantizeRoundsToNearest : Prop :=
  (∀ clkHz div us q : Nat, 0 < div → 1 ≤ q → q ≤ 2 ^ 32 - 1 →
    (q * (2 * (div * 1000000)) ≤ 2 * us * clkHz + div * 1000000 ∧
      2 * us * clkHz + div * 1000000 < (q + 1) * (2 * (div * 1000000)) → quantizeWith clkHz div us = q)) ∧
  (∀ clkHz div us : Nat, 0 < div →
    (2 * us * clkHz < div * 1000000 → quantizeWith clkHz div us = 1) ∧
    ((2 ^ 32 - 1) * (2 * (div * 1000000)) ≤ 2 * us * clkHz + div * 1000000 → quantizeWith clkHz div us = 2 ^ 32 - 1)) ∧
  ∀ b : BitVec 2,
    (periodTicks b).toNat = quantizeWith Config.timerClkHz Config.timerDiv (Config.basePeriodUs * 2 ^ b.toNat) ∧
    1 ≤ (periodTicks b).toNat

/-- 60_exceptions.md R163: at a boundary between host commands a pending TICK is taken before the next command. At the
transaction level the order is free (20_memory.md R63); the move that makes this choice is the model's form of it (log 8). -/
def Obligations.BoundaryTakesTheTickFirst : Prop :=
  ∀ (s : State) (ms : List Move), s.schedule = .boundary :: ms →
    (s.tickPending = true → step s = .next (tickBody { s with schedule := ms })) ∧
    (s.tickPending = false → step s = hostStep { s with schedule := ms })

/-! ### Flags, reset, port -/

/-- 10_state.md R35: CmdFault sets cmd_fault and records the opcode of the first fault. Both are sticky: no step but RESET clears or changes them once a fault is recorded, and
a fault is first recorded with the opcode of the reserved word at the port head. -/
def Obligations.FaultRecordIsSticky : Prop :=
  (∀ (op : BitVec 3) (s : State), raiseCmdFault op s =
    { s with cmdFault := true, faultOp := if s.cmdFault = true then s.faultOp else op }) ∧
  ∀ s t : State, step s = .next t → nextMove s ≠ .reset →
    (s.cmdFault = true → t.cmdFault = true ∧ t.faultOp = s.faultOp) ∧
    (s.cmdFault = false → t.cmdFault = true →
      ∃ w, (nextMove s = .host ∨ nextMove s = .boundary) ∧ s.portHead = some w ∧
        (opField w = 6#3 ∨ opField w = 7#3) ∧ t.faultOp = opField w) ∧
    (s.cmdFault = false → t.cmdFault = false → t.faultOp = s.faultOp)

/-- 10_state.md R30, R34: nothing but RESET stops the timer, disables the interrupt or clears the overrun, and only START
starts the timer. -/
def Obligations.TimerRunsUntilReset : Prop :=
  ∀ s t : State, step s = .next t → nextMove s ≠ .reset →
    (s.tmrEn = true → t.tmrEn = true) ∧ (s.tmrIen = true → t.tmrIen = true) ∧
    (s.tickOverrun = true → t.tickOverrun = true) ∧
    (s.tmrEn = false → t.tmrEn = true →
      ∃ w, (nextMove s = .host ∨ nextMove s = .boundary) ∧ s.portHead = some w ∧ decode w = .start)

/-- 10_state.md R44: RESET from any state: every register, flag, pin and cell at its value in R44, the port head empty,
rsp_valid 0. -/
def Obligations.ResetRestoresEveryRegister : Prop :=
  ∀ s : State, nextMove s = .reset →
    ∃ t, step s = .next t ∧ (∀ a, t.mem.read a = 0#16) ∧ t.frontSel = 0#1 ∧ t.pending = false ∧ t.bitIdx = 0#2 ∧
      t.rowIdx = 0#3 ∧ t.tmrEn = false ∧ t.tmrIen = false ∧ t.tmrCnt = 0#32 ∧ t.tmrPre = 0 ∧ t.tmrRc = 0#32 ∧
      t.tickPending = false ∧ t.tickOverrun = false ∧ t.cmdFault = false ∧ t.faultOp = 0#3 ∧
      (∀ p, t.pins.get p = false) ∧ t.portHead = none ∧ t.rspPort = none

/-- 70_reset_and_hazards.md R180, R181: RESET appends exactly one Reset event; after it STATUS answers 0 and GETPIXEL of any
cell answers 0. -/
def Obligations.ResetAppendsOneEventAndReadsZero : Prop :=
  ∀ s : State, nextMove s = .reset →
    ∃ t, step s = .next t ∧ t.trace = s.trace ++ [.reset] ∧ statusWord t = 0#32 ∧
      ∀ (x y : Int), ∃ u, exec (.getPixel x y) t = .next u ∧ u.responses = t.responses ++ [0#32]

/-- 10_state.md R40: the word at the port head stays until the host's step executes it or RESET drops it, a held word stays
through the host's step too, a free port takes only the host's next word, and the words still to come change only by
presenting one at a free port and by sending one (60_exceptions.md R179). That words are sent first and presented later, and so
the list of words still to come, is the model's split (log 3): in the spec sending a word is presenting it. -/
def Obligations.PortHoldsItsWord : Prop :=
  ∀ s t : State, step s = .next t → nextMove s ≠ .reset →
    (∀ w, s.portHead = some w → t.portHead ≠ some w →
      t.portHead = none ∧ held (decode w) s = false ∧ (nextMove s = .host ∨ nextMove s = .boundary)) ∧
    (s.portHead = none → t.portHead ≠ none →
      ∃ w ws, s.hostQueue = w :: ws ∧ t.portHead = some w ∧ t.hostQueue = ws) ∧
    (t.hostQueue = s.hostQueue ∨ (nextMove s = .present ∧ s.portHead = none) ∨
      ∃ w, nextMove s = .send w ∧ t.hostQueue = s.hostQueue ++ [w])

/-- 10_state.md R40: cmd_ready is 0 whenever the presented word is held. -/
def Obligations.ReadyIsLowWhileHeld : Prop :=
  ∀ (s : State) (w : Word), s.portHead = some w → held (decode w) s = true → cmdReady s = false

/-- 10_state.md R42, R46: the trace and the response stream are append-only, and a step adds at most one response. -/
def Obligations.ObservationsOnlyGrow : Prop :=
  ∀ s t : State, step s = .next t →
    (∃ evs, t.trace = s.trace ++ evs) ∧ (t.responses = s.responses ∨ ∃ v, t.responses = s.responses ++ [v])

/-- 00_scope.md R15, 60_exceptions.md R166: no step stops the machine: every step, and every command, answers a next state. That a mover
that is not enabled, or a command that is held, answers a next state too is the model's stuttering step (log 1, log 11), and
that nothing stops the block is read from the spec (log 16). -/
def Obligations.EveryStepAnswersANextState : Prop :=
  (∀ s : State, ∃ t, step s = .next t) ∧ ∀ (i : Instr) (s : State), ∃ t, exec i s = .next t

/-! ### Invariants and liveness -/

/-- 10_state.md R44, 70_reset_and_hazards.md R183: the state after reset meets the invariant, and its empty trace tells it. -/
def Obligations.ResetStateMeetsTheInvariant : Prop := Inv State.reset ∧ TraceTells State.reset

/-- The invariant of the block (20_memory.md R50; 10_state.md R30, R32, R33, R35; 60_exceptions.md R162; 40_scan_engine.md
R100; 70_reset_and_hazards.md R182) is kept by every step, from every state that meets it. -/
def Obligations.EveryStepKeepsTheInvariant : Prop :=
  ∀ s t : State, Inv s → step s = .next t → Inv t

/-- 10_state.md R36, 40_scan_engine.md R92, R105, R116: what the trace tells is kept by every step: the cursor counts the
TICKs since Reset, the front store is the last Swap's, each pin holds the last level written, the periods are loaded in plane
order, and a Swap comes only after whole frames. -/
def Obligations.EveryStepKeepsWhatTheTraceTells : Prop :=
  ∀ s t : State, TraceTells s → step s = .next t → TraceTells t

/-- 60_exceptions.md R171, 70_reset_and_hazards.md R188: with the timer stopped and no tick due, a command held for a swap is
held for ever: every step but RESET leaves the hang, and everything but the response port (log 6), the words the host sends
behind the held one (R179, log 3) and the model's own choice of mover (log 1, log 2), as it is. -/
def Obligations.HangLastsUntilReset : Prop :=
  ∀ s t : State, Hang s → nextMove s ≠ .reset → step s = .next t →
    Hang t ∧ t = { spendMove s with rspPort := t.rspPort, hostQueue := t.hostQueue } ∧
      ((∃ w, nextMove s = .send w ∧ t.hostQueue = s.hostQueue ++ [w]) ∨
        ((∀ w, nextMove s ≠ .send w) ∧ t.hostQueue = s.hostQueue))

/-- 70_reset_and_hazards.md R187: a pending swap comes with the TICK of (3,7) of the frame in progress: under expiries each
taken by its TICK, after exactly 32 - (place in the frame) of them, at most 32, and not before. The steps counted are the
spent moves of the model's schedule (log 1). -/
def Obligations.PendingSwapComesWithinOneFrame : Prop :=
  ∀ (s : State) (ms : List Move), s.pending = true → s.tmrEn = true → s.tmrIen = true →
    s.schedule = (List.replicate 32 [Move.expire, Move.tick]).flatten ++ ms →
    (∀ k, k < 2 * (32 - framePos s) →
      ∃ t : State, Host.Core.run core k s = .next t ∧ t.pending = true ∧ t.frontSel = s.frontSel) ∧
    ∃ t : State, Host.Core.run core (2 * (32 - framePos s)) s = .next t ∧ t.pending = false ∧
      t.frontSel = 1#1 - s.frontSel ∧ framePos t = 0

/-- 20_memory.md R65, 60_exceptions.md R177: in every run that is weakly fair to EXPIRE and TICK and is not reset, a pending
request is honoured: a later state has exchanged the roles once, and until then the request stood. -/
def Obligations.FairRunHonoursEveryRequest : Prop :=
  ∀ (mv : Nat → Move) (r : Nat → State) (n : Nat), IsRun mv r → WeaklyFair mv r → (∀ m, n ≤ m → mv m ≠ .reset) →
    (r n).pending = true → (r n).tmrEn = true → (r n).tmrIen = true →
    ∃ m, n < m ∧ (r m).pending = false ∧ (r m).frontSel = 1#1 - (r n).frontSel ∧
      ∀ k, n ≤ k → k < m → (r k).pending = true ∧ (r k).frontSel = (r n).frontSel

/-! ### The host's liberties -/

/-- 60_exceptions.md R179: the host may send any 32-bit word at any time, whatever stands at the port: it joins the words to
present, and nothing else changes. At a free port the next word is then presented. The split into sending and presenting (log 3)
and the spent move (log 1) are the model's. -/
def Obligations.HostSendsAnyWordAtAnyTime : Prop :=
  (∀ (s : State) (w : Word) (ms : List Move), s.schedule = .send w :: ms →
    step s = .next { s with schedule := ms, hostQueue := s.hostQueue ++ [w] }) ∧
  ∀ (s : State) (w : Word) (ws : List Word) (ms : List Move), s.schedule = .present :: ms → s.portHead = none →
    s.hostQueue = w :: ws → step s = .next { s with schedule := ms, hostQueue := ws, portHead := some w }

/-- 60_exceptions.md R179, R178: a run of commands has no end. From every state with a free port and nothing sent, for every
infinite stream of words that wait for no swap (a host that polls STATUS for ever among them), some run executes them all, in
order. The split of one transfer into sending, presenting and executing is the model's (log 3). -/
def Obligations.EveryStreamOfWordsCanBeExecuted : Prop :=
  ∀ (s : State) (f : Nat → Word), s.portHead = none → s.hostQueue = [] → (∀ n, waitsForSwap (decode (f n)) = false) →
    ∃ (mv : Nat → Move) (r : Nat → State), IsRun mv r ∧ r 0 = s ∧
      ∀ n, (r (3 * n)).portHead = none ∧ (r (3 * n + 2)).portHead = some (f n) ∧
        ∃ u, exec (decode (f n)) { r (3 * n + 2) with rspPort := none } = .next u ∧ r (3 * n + 3) = { u with portHead := none }
end

