-- ==== Sys2Proof/Laws/State.lean ====
section
/-! SUPPORT. For each operation on State, one lemma per field: what the operation leaves and what it makes of it. -/

namespace Sys2Proof.Machine

/-! What pixWrite leaves and makes of each field. -/
@[simp] theorem pixWrite_mem (st : BitVec 1) (i : Nat) (v : Color) (s : State) : (pixWrite st i v s).mem = s.mem.write (pixAddr st i) v := rfl
@[simp] theorem pixWrite_frontSel (st : BitVec 1) (i : Nat) (v : Color) (s : State) : (pixWrite st i v s).frontSel = s.frontSel := rfl
@[simp] theorem pixWrite_pending (st : BitVec 1) (i : Nat) (v : Color) (s : State) : (pixWrite st i v s).pending = s.pending := rfl
@[simp] theorem pixWrite_bitIdx (st : BitVec 1) (i : Nat) (v : Color) (s : State) : (pixWrite st i v s).bitIdx = s.bitIdx := rfl
@[simp] theorem pixWrite_rowIdx (st : BitVec 1) (i : Nat) (v : Color) (s : State) : (pixWrite st i v s).rowIdx = s.rowIdx := rfl
@[simp] theorem pixWrite_tmrEn (st : BitVec 1) (i : Nat) (v : Color) (s : State) : (pixWrite st i v s).tmrEn = s.tmrEn := rfl
@[simp] theorem pixWrite_tmrIen (st : BitVec 1) (i : Nat) (v : Color) (s : State) : (pixWrite st i v s).tmrIen = s.tmrIen := rfl
@[simp] theorem pixWrite_tmrCnt (st : BitVec 1) (i : Nat) (v : Color) (s : State) : (pixWrite st i v s).tmrCnt = s.tmrCnt := rfl
@[simp] theorem pixWrite_tmrPre (st : BitVec 1) (i : Nat) (v : Color) (s : State) : (pixWrite st i v s).tmrPre = s.tmrPre := rfl
@[simp] theorem pixWrite_tmrRc (st : BitVec 1) (i : Nat) (v : Color) (s : State) : (pixWrite st i v s).tmrRc = s.tmrRc := rfl
@[simp] theorem pixWrite_tickPending (st : BitVec 1) (i : Nat) (v : Color) (s : State) : (pixWrite st i v s).tickPending = s.tickPending := rfl
@[simp] theorem pixWrite_tickOverrun (st : BitVec 1) (i : Nat) (v : Color) (s : State) : (pixWrite st i v s).tickOverrun = s.tickOverrun := rfl
@[simp] theorem pixWrite_cmdFault (st : BitVec 1) (i : Nat) (v : Color) (s : State) : (pixWrite st i v s).cmdFault = s.cmdFault := rfl
@[simp] theorem pixWrite_faultOp (st : BitVec 1) (i : Nat) (v : Color) (s : State) : (pixWrite st i v s).faultOp = s.faultOp := rfl
@[simp] theorem pixWrite_pins (st : BitVec 1) (i : Nat) (v : Color) (s : State) : (pixWrite st i v s).pins = s.pins := rfl
@[simp] theorem pixWrite_portHead (st : BitVec 1) (i : Nat) (v : Color) (s : State) : (pixWrite st i v s).portHead = s.portHead := rfl
@[simp] theorem pixWrite_rspPort (st : BitVec 1) (i : Nat) (v : Color) (s : State) : (pixWrite st i v s).rspPort = s.rspPort := rfl
@[simp] theorem pixWrite_responses (st : BitVec 1) (i : Nat) (v : Color) (s : State) : (pixWrite st i v s).responses = s.responses := rfl
@[simp] theorem pixWrite_trace (st : BitVec 1) (i : Nat) (v : Color) (s : State) : (pixWrite st i v s).trace = s.trace := rfl
@[simp] theorem pixWrite_hostQueue (st : BitVec 1) (i : Nat) (v : Color) (s : State) : (pixWrite st i v s).hostQueue = s.hostQueue := rfl
@[simp] theorem pixWrite_schedule (st : BitVec 1) (i : Nat) (v : Color) (s : State) : (pixWrite st i v s).schedule = s.schedule := rfl
@[simp] theorem pixWrite_choices (st : BitVec 1) (i : Nat) (v : Color) (s : State) : (pixWrite st i v s).choices = s.choices := rfl

/-! What appendEvent leaves and makes of each field. -/
@[simp] theorem appendEvent_mem (e : Event) (s : State) : (appendEvent e s).mem = s.mem := rfl
@[simp] theorem appendEvent_frontSel (e : Event) (s : State) : (appendEvent e s).frontSel = s.frontSel := rfl
@[simp] theorem appendEvent_pending (e : Event) (s : State) : (appendEvent e s).pending = s.pending := rfl
@[simp] theorem appendEvent_bitIdx (e : Event) (s : State) : (appendEvent e s).bitIdx = s.bitIdx := rfl
@[simp] theorem appendEvent_rowIdx (e : Event) (s : State) : (appendEvent e s).rowIdx = s.rowIdx := rfl
@[simp] theorem appendEvent_tmrEn (e : Event) (s : State) : (appendEvent e s).tmrEn = s.tmrEn := rfl
@[simp] theorem appendEvent_tmrIen (e : Event) (s : State) : (appendEvent e s).tmrIen = s.tmrIen := rfl
@[simp] theorem appendEvent_tmrCnt (e : Event) (s : State) : (appendEvent e s).tmrCnt = s.tmrCnt := rfl
@[simp] theorem appendEvent_tmrPre (e : Event) (s : State) : (appendEvent e s).tmrPre = s.tmrPre := rfl
@[simp] theorem appendEvent_tmrRc (e : Event) (s : State) : (appendEvent e s).tmrRc = s.tmrRc := rfl
@[simp] theorem appendEvent_tickPending (e : Event) (s : State) : (appendEvent e s).tickPending = s.tickPending := rfl
@[simp] theorem appendEvent_tickOverrun (e : Event) (s : State) : (appendEvent e s).tickOverrun = s.tickOverrun := rfl
@[simp] theorem appendEvent_cmdFault (e : Event) (s : State) : (appendEvent e s).cmdFault = s.cmdFault := rfl
@[simp] theorem appendEvent_faultOp (e : Event) (s : State) : (appendEvent e s).faultOp = s.faultOp := rfl
@[simp] theorem appendEvent_pins (e : Event) (s : State) : (appendEvent e s).pins = s.pins := rfl
@[simp] theorem appendEvent_portHead (e : Event) (s : State) : (appendEvent e s).portHead = s.portHead := rfl
@[simp] theorem appendEvent_rspPort (e : Event) (s : State) : (appendEvent e s).rspPort = s.rspPort := rfl
@[simp] theorem appendEvent_responses (e : Event) (s : State) : (appendEvent e s).responses = s.responses := rfl
@[simp] theorem appendEvent_trace (e : Event) (s : State) : (appendEvent e s).trace = s.trace ++ [e] := rfl
@[simp] theorem appendEvent_hostQueue (e : Event) (s : State) : (appendEvent e s).hostQueue = s.hostQueue := rfl
@[simp] theorem appendEvent_schedule (e : Event) (s : State) : (appendEvent e s).schedule = s.schedule := rfl
@[simp] theorem appendEvent_choices (e : Event) (s : State) : (appendEvent e s).choices = s.choices := rfl

/-! What pinWrite leaves and makes of each field. -/
@[simp] theorem pinWrite_mem (p : Pin) (v : Bool) (s : State) : (pinWrite p v s).mem = s.mem := rfl
@[simp] theorem pinWrite_frontSel (p : Pin) (v : Bool) (s : State) : (pinWrite p v s).frontSel = s.frontSel := rfl
@[simp] theorem pinWrite_pending (p : Pin) (v : Bool) (s : State) : (pinWrite p v s).pending = s.pending := rfl
@[simp] theorem pinWrite_bitIdx (p : Pin) (v : Bool) (s : State) : (pinWrite p v s).bitIdx = s.bitIdx := rfl
@[simp] theorem pinWrite_rowIdx (p : Pin) (v : Bool) (s : State) : (pinWrite p v s).rowIdx = s.rowIdx := rfl
@[simp] theorem pinWrite_tmrEn (p : Pin) (v : Bool) (s : State) : (pinWrite p v s).tmrEn = s.tmrEn := rfl
@[simp] theorem pinWrite_tmrIen (p : Pin) (v : Bool) (s : State) : (pinWrite p v s).tmrIen = s.tmrIen := rfl
@[simp] theorem pinWrite_tmrCnt (p : Pin) (v : Bool) (s : State) : (pinWrite p v s).tmrCnt = s.tmrCnt := rfl
@[simp] theorem pinWrite_tmrPre (p : Pin) (v : Bool) (s : State) : (pinWrite p v s).tmrPre = s.tmrPre := rfl
@[simp] theorem pinWrite_tmrRc (p : Pin) (v : Bool) (s : State) : (pinWrite p v s).tmrRc = s.tmrRc := rfl
@[simp] theorem pinWrite_tickPending (p : Pin) (v : Bool) (s : State) : (pinWrite p v s).tickPending = s.tickPending := rfl
@[simp] theorem pinWrite_tickOverrun (p : Pin) (v : Bool) (s : State) : (pinWrite p v s).tickOverrun = s.tickOverrun := rfl
@[simp] theorem pinWrite_cmdFault (p : Pin) (v : Bool) (s : State) : (pinWrite p v s).cmdFault = s.cmdFault := rfl
@[simp] theorem pinWrite_faultOp (p : Pin) (v : Bool) (s : State) : (pinWrite p v s).faultOp = s.faultOp := rfl
@[simp] theorem pinWrite_pins (p : Pin) (v : Bool) (s : State) : (pinWrite p v s).pins = s.pins.set p v := rfl
@[simp] theorem pinWrite_portHead (p : Pin) (v : Bool) (s : State) : (pinWrite p v s).portHead = s.portHead := rfl
@[simp] theorem pinWrite_rspPort (p : Pin) (v : Bool) (s : State) : (pinWrite p v s).rspPort = s.rspPort := rfl
@[simp] theorem pinWrite_responses (p : Pin) (v : Bool) (s : State) : (pinWrite p v s).responses = s.responses := rfl
@[simp] theorem pinWrite_trace (p : Pin) (v : Bool) (s : State) : (pinWrite p v s).trace = s.trace ++ [.pin p v] := rfl
@[simp] theorem pinWrite_hostQueue (p : Pin) (v : Bool) (s : State) : (pinWrite p v s).hostQueue = s.hostQueue := rfl
@[simp] theorem pinWrite_schedule (p : Pin) (v : Bool) (s : State) : (pinWrite p v s).schedule = s.schedule := rfl
@[simp] theorem pinWrite_choices (p : Pin) (v : Bool) (s : State) : (pinWrite p v s).choices = s.choices := rfl

/-! What respond leaves and makes of each field. -/
@[simp] theorem respond_mem (v : Word) (s : State) : (respond v s).mem = s.mem := rfl
@[simp] theorem respond_frontSel (v : Word) (s : State) : (respond v s).frontSel = s.frontSel := rfl
@[simp] theorem respond_pending (v : Word) (s : State) : (respond v s).pending = s.pending := rfl
@[simp] theorem respond_bitIdx (v : Word) (s : State) : (respond v s).bitIdx = s.bitIdx := rfl
@[simp] theorem respond_rowIdx (v : Word) (s : State) : (respond v s).rowIdx = s.rowIdx := rfl
@[simp] theorem respond_tmrEn (v : Word) (s : State) : (respond v s).tmrEn = s.tmrEn := rfl
@[simp] theorem respond_tmrIen (v : Word) (s : State) : (respond v s).tmrIen = s.tmrIen := rfl
@[simp] theorem respond_tmrCnt (v : Word) (s : State) : (respond v s).tmrCnt = s.tmrCnt := rfl
@[simp] theorem respond_tmrPre (v : Word) (s : State) : (respond v s).tmrPre = s.tmrPre := rfl
@[simp] theorem respond_tmrRc (v : Word) (s : State) : (respond v s).tmrRc = s.tmrRc := rfl
@[simp] theorem respond_tickPending (v : Word) (s : State) : (respond v s).tickPending = s.tickPending := rfl
@[simp] theorem respond_tickOverrun (v : Word) (s : State) : (respond v s).tickOverrun = s.tickOverrun := rfl
@[simp] theorem respond_cmdFault (v : Word) (s : State) : (respond v s).cmdFault = s.cmdFault := rfl
@[simp] theorem respond_faultOp (v : Word) (s : State) : (respond v s).faultOp = s.faultOp := rfl
@[simp] theorem respond_pins (v : Word) (s : State) : (respond v s).pins = s.pins := rfl
@[simp] theorem respond_portHead (v : Word) (s : State) : (respond v s).portHead = s.portHead := rfl
@[simp] theorem respond_rspPort (v : Word) (s : State) : (respond v s).rspPort = some v := rfl
@[simp] theorem respond_responses (v : Word) (s : State) : (respond v s).responses = s.responses ++ [v] := rfl
@[simp] theorem respond_trace (v : Word) (s : State) : (respond v s).trace = s.trace := rfl
@[simp] theorem respond_hostQueue (v : Word) (s : State) : (respond v s).hostQueue = s.hostQueue := rfl
@[simp] theorem respond_schedule (v : Word) (s : State) : (respond v s).schedule = s.schedule := rfl
@[simp] theorem respond_choices (v : Word) (s : State) : (respond v s).choices = s.choices := rfl

/-! What raiseCmdFault leaves and makes of each field. -/
@[simp] theorem raiseCmdFault_mem (op : BitVec 3) (s : State) : (raiseCmdFault op s).mem = s.mem := rfl
@[simp] theorem raiseCmdFault_frontSel (op : BitVec 3) (s : State) : (raiseCmdFault op s).frontSel = s.frontSel := rfl
@[simp] theorem raiseCmdFault_pending (op : BitVec 3) (s : State) : (raiseCmdFault op s).pending = s.pending := rfl
@[simp] theorem raiseCmdFault_bitIdx (op : BitVec 3) (s : State) : (raiseCmdFault op s).bitIdx = s.bitIdx := rfl
@[simp] theorem raiseCmdFault_rowIdx (op : BitVec 3) (s : State) : (raiseCmdFault op s).rowIdx = s.rowIdx := rfl
@[simp] theorem raiseCmdFault_tmrEn (op : BitVec 3) (s : State) : (raiseCmdFault op s).tmrEn = s.tmrEn := rfl
@[simp] theorem raiseCmdFault_tmrIen (op : BitVec 3) (s : State) : (raiseCmdFault op s).tmrIen = s.tmrIen := rfl
@[simp] theorem raiseCmdFault_tmrCnt (op : BitVec 3) (s : State) : (raiseCmdFault op s).tmrCnt = s.tmrCnt := rfl
@[simp] theorem raiseCmdFault_tmrPre (op : BitVec 3) (s : State) : (raiseCmdFault op s).tmrPre = s.tmrPre := rfl
@[simp] theorem raiseCmdFault_tmrRc (op : BitVec 3) (s : State) : (raiseCmdFault op s).tmrRc = s.tmrRc := rfl
@[simp] theorem raiseCmdFault_tickPending (op : BitVec 3) (s : State) : (raiseCmdFault op s).tickPending = s.tickPending := rfl
@[simp] theorem raiseCmdFault_tickOverrun (op : BitVec 3) (s : State) : (raiseCmdFault op s).tickOverrun = s.tickOverrun := rfl
@[simp] theorem raiseCmdFault_cmdFault (op : BitVec 3) (s : State) : (raiseCmdFault op s).cmdFault = true := rfl
@[simp] theorem raiseCmdFault_faultOp (op : BitVec 3) (s : State) : (raiseCmdFault op s).faultOp = if s.cmdFault then s.faultOp else op := rfl
@[simp] theorem raiseCmdFault_pins (op : BitVec 3) (s : State) : (raiseCmdFault op s).pins = s.pins := rfl
@[simp] theorem raiseCmdFault_portHead (op : BitVec 3) (s : State) : (raiseCmdFault op s).portHead = s.portHead := rfl
@[simp] theorem raiseCmdFault_rspPort (op : BitVec 3) (s : State) : (raiseCmdFault op s).rspPort = s.rspPort := rfl
@[simp] theorem raiseCmdFault_responses (op : BitVec 3) (s : State) : (raiseCmdFault op s).responses = s.responses := rfl
@[simp] theorem raiseCmdFault_trace (op : BitVec 3) (s : State) : (raiseCmdFault op s).trace = s.trace := rfl
@[simp] theorem raiseCmdFault_hostQueue (op : BitVec 3) (s : State) : (raiseCmdFault op s).hostQueue = s.hostQueue := rfl
@[simp] theorem raiseCmdFault_schedule (op : BitVec 3) (s : State) : (raiseCmdFault op s).schedule = s.schedule := rfl
@[simp] theorem raiseCmdFault_choices (op : BitVec 3) (s : State) : (raiseCmdFault op s).choices = s.choices := rfl

/-! What timerLoad leaves and makes of each field. -/
@[simp] theorem timerLoad_mem (n : Word) (s : State) : (timerLoad n s).mem = s.mem := rfl
@[simp] theorem timerLoad_frontSel (n : Word) (s : State) : (timerLoad n s).frontSel = s.frontSel := rfl
@[simp] theorem timerLoad_pending (n : Word) (s : State) : (timerLoad n s).pending = s.pending := rfl
@[simp] theorem timerLoad_bitIdx (n : Word) (s : State) : (timerLoad n s).bitIdx = s.bitIdx := rfl
@[simp] theorem timerLoad_rowIdx (n : Word) (s : State) : (timerLoad n s).rowIdx = s.rowIdx := rfl
@[simp] theorem timerLoad_tmrEn (n : Word) (s : State) : (timerLoad n s).tmrEn = s.tmrEn := rfl
@[simp] theorem timerLoad_tmrIen (n : Word) (s : State) : (timerLoad n s).tmrIen = true := rfl
@[simp] theorem timerLoad_tmrCnt (n : Word) (s : State) : (timerLoad n s).tmrCnt = s.tmrCnt := rfl
@[simp] theorem timerLoad_tmrPre (n : Word) (s : State) : (timerLoad n s).tmrPre = s.tmrPre := rfl
@[simp] theorem timerLoad_tmrRc (n : Word) (s : State) : (timerLoad n s).tmrRc = n := rfl
@[simp] theorem timerLoad_tickPending (n : Word) (s : State) : (timerLoad n s).tickPending = s.tickPending := rfl
@[simp] theorem timerLoad_tickOverrun (n : Word) (s : State) : (timerLoad n s).tickOverrun = s.tickOverrun := rfl
@[simp] theorem timerLoad_cmdFault (n : Word) (s : State) : (timerLoad n s).cmdFault = s.cmdFault := rfl
@[simp] theorem timerLoad_faultOp (n : Word) (s : State) : (timerLoad n s).faultOp = s.faultOp := rfl
@[simp] theorem timerLoad_pins (n : Word) (s : State) : (timerLoad n s).pins = s.pins := rfl
@[simp] theorem timerLoad_portHead (n : Word) (s : State) : (timerLoad n s).portHead = s.portHead := rfl
@[simp] theorem timerLoad_rspPort (n : Word) (s : State) : (timerLoad n s).rspPort = s.rspPort := rfl
@[simp] theorem timerLoad_responses (n : Word) (s : State) : (timerLoad n s).responses = s.responses := rfl
@[simp] theorem timerLoad_trace (n : Word) (s : State) : (timerLoad n s).trace = s.trace ++ [.timerLoad n] := rfl
@[simp] theorem timerLoad_hostQueue (n : Word) (s : State) : (timerLoad n s).hostQueue = s.hostQueue := rfl
@[simp] theorem timerLoad_schedule (n : Word) (s : State) : (timerLoad n s).schedule = s.schedule := rfl
@[simp] theorem timerLoad_choices (n : Word) (s : State) : (timerLoad n s).choices = s.choices := rfl

/-! What timerStart leaves and makes of each field. -/
@[simp] theorem timerStart_mem (n : Word) (s : State) : (timerStart n s).mem = s.mem := rfl
@[simp] theorem timerStart_frontSel (n : Word) (s : State) : (timerStart n s).frontSel = s.frontSel := rfl
@[simp] theorem timerStart_pending (n : Word) (s : State) : (timerStart n s).pending = s.pending := rfl
@[simp] theorem timerStart_bitIdx (n : Word) (s : State) : (timerStart n s).bitIdx = s.bitIdx := rfl
@[simp] theorem timerStart_rowIdx (n : Word) (s : State) : (timerStart n s).rowIdx = s.rowIdx := rfl
@[simp] theorem timerStart_tmrEn (n : Word) (s : State) : (timerStart n s).tmrEn = true := rfl
@[simp] theorem timerStart_tmrIen (n : Word) (s : State) : (timerStart n s).tmrIen = true := rfl
@[simp] theorem timerStart_tmrCnt (n : Word) (s : State) : (timerStart n s).tmrCnt = 0#32 := rfl
@[simp] theorem timerStart_tmrPre (n : Word) (s : State) : (timerStart n s).tmrPre = 0 := rfl
@[simp] theorem timerStart_tmrRc (n : Word) (s : State) : (timerStart n s).tmrRc = n := rfl
@[simp] theorem timerStart_tickPending (n : Word) (s : State) : (timerStart n s).tickPending = s.tickPending := rfl
@[simp] theorem timerStart_tickOverrun (n : Word) (s : State) : (timerStart n s).tickOverrun = s.tickOverrun := rfl
@[simp] theorem timerStart_cmdFault (n : Word) (s : State) : (timerStart n s).cmdFault = s.cmdFault := rfl
@[simp] theorem timerStart_faultOp (n : Word) (s : State) : (timerStart n s).faultOp = s.faultOp := rfl
@[simp] theorem timerStart_pins (n : Word) (s : State) : (timerStart n s).pins = s.pins := rfl
@[simp] theorem timerStart_portHead (n : Word) (s : State) : (timerStart n s).portHead = s.portHead := rfl
@[simp] theorem timerStart_rspPort (n : Word) (s : State) : (timerStart n s).rspPort = s.rspPort := rfl
@[simp] theorem timerStart_responses (n : Word) (s : State) : (timerStart n s).responses = s.responses := rfl
@[simp] theorem timerStart_trace (n : Word) (s : State) : (timerStart n s).trace = s.trace ++ [.timerStart n] := rfl
@[simp] theorem timerStart_hostQueue (n : Word) (s : State) : (timerStart n s).hostQueue = s.hostQueue := rfl
@[simp] theorem timerStart_schedule (n : Word) (s : State) : (timerStart n s).schedule = s.schedule := rfl
@[simp] theorem timerStart_choices (n : Word) (s : State) : (timerStart n s).choices = s.choices := rfl

/-! What writeBackCell leaves and makes of each field. -/
@[simp] theorem writeBackCell_mem (x y : Int) (v : Color) (s : State) : (writeBackCell x y v s).mem = s.mem.write (pixAddr (backStore s) (cellIndex x.toNat y.toNat)) v := rfl
@[simp] theorem writeBackCell_frontSel (x y : Int) (v : Color) (s : State) : (writeBackCell x y v s).frontSel = s.frontSel := rfl
@[simp] theorem writeBackCell_pending (x y : Int) (v : Color) (s : State) : (writeBackCell x y v s).pending = s.pending := rfl
@[simp] theorem writeBackCell_bitIdx (x y : Int) (v : Color) (s : State) : (writeBackCell x y v s).bitIdx = s.bitIdx := rfl
@[simp] theorem writeBackCell_rowIdx (x y : Int) (v : Color) (s : State) : (writeBackCell x y v s).rowIdx = s.rowIdx := rfl
@[simp] theorem writeBackCell_tmrEn (x y : Int) (v : Color) (s : State) : (writeBackCell x y v s).tmrEn = s.tmrEn := rfl
@[simp] theorem writeBackCell_tmrIen (x y : Int) (v : Color) (s : State) : (writeBackCell x y v s).tmrIen = s.tmrIen := rfl
@[simp] theorem writeBackCell_tmrCnt (x y : Int) (v : Color) (s : State) : (writeBackCell x y v s).tmrCnt = s.tmrCnt := rfl
@[simp] theorem writeBackCell_tmrPre (x y : Int) (v : Color) (s : State) : (writeBackCell x y v s).tmrPre = s.tmrPre := rfl
@[simp] theorem writeBackCell_tmrRc (x y : Int) (v : Color) (s : State) : (writeBackCell x y v s).tmrRc = s.tmrRc := rfl
@[simp] theorem writeBackCell_tickPending (x y : Int) (v : Color) (s : State) : (writeBackCell x y v s).tickPending = s.tickPending := rfl
@[simp] theorem writeBackCell_tickOverrun (x y : Int) (v : Color) (s : State) : (writeBackCell x y v s).tickOverrun = s.tickOverrun := rfl
@[simp] theorem writeBackCell_cmdFault (x y : Int) (v : Color) (s : State) : (writeBackCell x y v s).cmdFault = s.cmdFault := rfl
@[simp] theorem writeBackCell_faultOp (x y : Int) (v : Color) (s : State) : (writeBackCell x y v s).faultOp = s.faultOp := rfl
@[simp] theorem writeBackCell_pins (x y : Int) (v : Color) (s : State) : (writeBackCell x y v s).pins = s.pins := rfl
@[simp] theorem writeBackCell_portHead (x y : Int) (v : Color) (s : State) : (writeBackCell x y v s).portHead = s.portHead := rfl
@[simp] theorem writeBackCell_rspPort (x y : Int) (v : Color) (s : State) : (writeBackCell x y v s).rspPort = s.rspPort := rfl
@[simp] theorem writeBackCell_responses (x y : Int) (v : Color) (s : State) : (writeBackCell x y v s).responses = s.responses := rfl
@[simp] theorem writeBackCell_trace (x y : Int) (v : Color) (s : State) : (writeBackCell x y v s).trace = s.trace := rfl
@[simp] theorem writeBackCell_hostQueue (x y : Int) (v : Color) (s : State) : (writeBackCell x y v s).hostQueue = s.hostQueue := rfl
@[simp] theorem writeBackCell_schedule (x y : Int) (v : Color) (s : State) : (writeBackCell x y v s).schedule = s.schedule := rfl
@[simp] theorem writeBackCell_choices (x y : Int) (v : Color) (s : State) : (writeBackCell x y v s).choices = s.choices := rfl

/-! What placeWord leaves and makes of each field. -/
@[simp] theorem placeWord_mem (w : Word) (s : State) : (placeWord w s).mem = s.mem := rfl
@[simp] theorem placeWord_frontSel (w : Word) (s : State) : (placeWord w s).frontSel = s.frontSel := rfl
@[simp] theorem placeWord_pending (w : Word) (s : State) : (placeWord w s).pending = s.pending := rfl
@[simp] theorem placeWord_bitIdx (w : Word) (s : State) : (placeWord w s).bitIdx = s.bitIdx := rfl
@[simp] theorem placeWord_rowIdx (w : Word) (s : State) : (placeWord w s).rowIdx = s.rowIdx := rfl
@[simp] theorem placeWord_tmrEn (w : Word) (s : State) : (placeWord w s).tmrEn = s.tmrEn := rfl
@[simp] theorem placeWord_tmrIen (w : Word) (s : State) : (placeWord w s).tmrIen = s.tmrIen := rfl
@[simp] theorem placeWord_tmrCnt (w : Word) (s : State) : (placeWord w s).tmrCnt = s.tmrCnt := rfl
@[simp] theorem placeWord_tmrPre (w : Word) (s : State) : (placeWord w s).tmrPre = s.tmrPre := rfl
@[simp] theorem placeWord_tmrRc (w : Word) (s : State) : (placeWord w s).tmrRc = s.tmrRc := rfl
@[simp] theorem placeWord_tickPending (w : Word) (s : State) : (placeWord w s).tickPending = s.tickPending := rfl
@[simp] theorem placeWord_tickOverrun (w : Word) (s : State) : (placeWord w s).tickOverrun = s.tickOverrun := rfl
@[simp] theorem placeWord_cmdFault (w : Word) (s : State) : (placeWord w s).cmdFault = s.cmdFault := rfl
@[simp] theorem placeWord_faultOp (w : Word) (s : State) : (placeWord w s).faultOp = s.faultOp := rfl
@[simp] theorem placeWord_pins (w : Word) (s : State) : (placeWord w s).pins = s.pins := rfl
@[simp] theorem placeWord_portHead (w : Word) (s : State) : (placeWord w s).portHead = some w := rfl
@[simp] theorem placeWord_rspPort (w : Word) (s : State) : (placeWord w s).rspPort = s.rspPort := rfl
@[simp] theorem placeWord_responses (w : Word) (s : State) : (placeWord w s).responses = s.responses := rfl
@[simp] theorem placeWord_trace (w : Word) (s : State) : (placeWord w s).trace = s.trace := rfl
@[simp] theorem placeWord_hostQueue (w : Word) (s : State) : (placeWord w s).hostQueue = s.hostQueue := rfl
@[simp] theorem placeWord_schedule (w : Word) (s : State) : (placeWord w s).schedule = .host :: s.schedule := rfl
@[simp] theorem placeWord_choices (w : Word) (s : State) : (placeWord w s).choices = s.choices := rfl

/-! What resetBlock leaves and makes of each field. -/
@[simp] theorem resetBlock_mem (s : State) : (resetBlock s).mem = [] := rfl
@[simp] theorem resetBlock_frontSel (s : State) : (resetBlock s).frontSel = 0#1 := rfl
@[simp] theorem resetBlock_pending (s : State) : (resetBlock s).pending = false := rfl
@[simp] theorem resetBlock_bitIdx (s : State) : (resetBlock s).bitIdx = 0#2 := rfl
@[simp] theorem resetBlock_rowIdx (s : State) : (resetBlock s).rowIdx = 0#3 := rfl
@[simp] theorem resetBlock_tmrEn (s : State) : (resetBlock s).tmrEn = false := rfl
@[simp] theorem resetBlock_tmrIen (s : State) : (resetBlock s).tmrIen = false := rfl
@[simp] theorem resetBlock_tmrCnt (s : State) : (resetBlock s).tmrCnt = 0#32 := rfl
@[simp] theorem resetBlock_tmrPre (s : State) : (resetBlock s).tmrPre = 0 := rfl
@[simp] theorem resetBlock_tmrRc (s : State) : (resetBlock s).tmrRc = 0#32 := rfl
@[simp] theorem resetBlock_tickPending (s : State) : (resetBlock s).tickPending = false := rfl
@[simp] theorem resetBlock_tickOverrun (s : State) : (resetBlock s).tickOverrun = false := rfl
@[simp] theorem resetBlock_cmdFault (s : State) : (resetBlock s).cmdFault = false := rfl
@[simp] theorem resetBlock_faultOp (s : State) : (resetBlock s).faultOp = 0#3 := rfl
@[simp] theorem resetBlock_pins (s : State) : (resetBlock s).pins = Pins.reset := rfl
@[simp] theorem resetBlock_portHead (s : State) : (resetBlock s).portHead = none := rfl
@[simp] theorem resetBlock_rspPort (s : State) : (resetBlock s).rspPort = none := rfl
@[simp] theorem resetBlock_responses (s : State) : (resetBlock s).responses = s.responses := rfl
@[simp] theorem resetBlock_trace (s : State) : (resetBlock s).trace = s.trace ++ [.reset] := rfl
@[simp] theorem resetBlock_hostQueue (s : State) : (resetBlock s).hostQueue = s.hostQueue := rfl
@[simp] theorem resetBlock_schedule (s : State) : (resetBlock s).schedule = s.schedule := rfl
@[simp] theorem resetBlock_choices (s : State) : (resetBlock s).choices = s.choices := rfl

/-! What zeroCells leaves and makes of each field. -/
@[simp] theorem zeroCells_frontSel (st : BitVec 1) (n : Nat) (s : State) : (zeroCells st n s).frontSel = s.frontSel := by
  induction n with
  | zero => rfl
  | succ n ih => exact ih
@[simp] theorem zeroCells_pending (st : BitVec 1) (n : Nat) (s : State) : (zeroCells st n s).pending = s.pending := by
  induction n with
  | zero => rfl
  | succ n ih => exact ih
@[simp] theorem zeroCells_bitIdx (st : BitVec 1) (n : Nat) (s : State) : (zeroCells st n s).bitIdx = s.bitIdx := by
  induction n with
  | zero => rfl
  | succ n ih => exact ih
@[simp] theorem zeroCells_rowIdx (st : BitVec 1) (n : Nat) (s : State) : (zeroCells st n s).rowIdx = s.rowIdx := by
  induction n with
  | zero => rfl
  | succ n ih => exact ih
@[simp] theorem zeroCells_tmrEn (st : BitVec 1) (n : Nat) (s : State) : (zeroCells st n s).tmrEn = s.tmrEn := by
  induction n with
  | zero => rfl
  | succ n ih => exact ih
@[simp] theorem zeroCells_tmrIen (st : BitVec 1) (n : Nat) (s : State) : (zeroCells st n s).tmrIen = s.tmrIen := by
  induction n with
  | zero => rfl
  | succ n ih => exact ih
@[simp] theorem zeroCells_tmrCnt (st : BitVec 1) (n : Nat) (s : State) : (zeroCells st n s).tmrCnt = s.tmrCnt := by
  induction n with
  | zero => rfl
  | succ n ih => exact ih
@[simp] theorem zeroCells_tmrPre (st : BitVec 1) (n : Nat) (s : State) : (zeroCells st n s).tmrPre = s.tmrPre := by
  induction n with
  | zero => rfl
  | succ n ih => exact ih
@[simp] theorem zeroCells_tmrRc (st : BitVec 1) (n : Nat) (s : State) : (zeroCells st n s).tmrRc = s.tmrRc := by
  induction n with
  | zero => rfl
  | succ n ih => exact ih
@[simp] theorem zeroCells_tickPending (st : BitVec 1) (n : Nat) (s : State) : (zeroCells st n s).tickPending = s.tickPending := by
  induction n with
  | zero => rfl
  | succ n ih => exact ih
@[simp] theorem zeroCells_tickOverrun (st : BitVec 1) (n : Nat) (s : State) : (zeroCells st n s).tickOverrun = s.tickOverrun := by
  induction n with
  | zero => rfl
  | succ n ih => exact ih
@[simp] theorem zeroCells_cmdFault (st : BitVec 1) (n : Nat) (s : State) : (zeroCells st n s).cmdFault = s.cmdFault := by
  induction n with
  | zero => rfl
  | succ n ih => exact ih
@[simp] theorem zeroCells_faultOp (st : BitVec 1) (n : Nat) (s : State) : (zeroCells st n s).faultOp = s.faultOp := by
  induction n with
  | zero => rfl
  | succ n ih => exact ih
@[simp] theorem zeroCells_pins (st : BitVec 1) (n : Nat) (s : State) : (zeroCells st n s).pins = s.pins := by
  induction n with
  | zero => rfl
  | succ n ih => exact ih
@[simp] theorem zeroCells_portHead (st : BitVec 1) (n : Nat) (s : State) : (zeroCells st n s).portHead = s.portHead := by
  induction n with
  | zero => rfl
  | succ n ih => exact ih
@[simp] theorem zeroCells_rspPort (st : BitVec 1) (n : Nat) (s : State) : (zeroCells st n s).rspPort = s.rspPort := by
  induction n with
  | zero => rfl
  | succ n ih => exact ih
@[simp] theorem zeroCells_responses (st : BitVec 1) (n : Nat) (s : State) : (zeroCells st n s).responses = s.responses := by
  induction n with
  | zero => rfl
  | succ n ih => exact ih
@[simp] theorem zeroCells_trace (st : BitVec 1) (n : Nat) (s : State) : (zeroCells st n s).trace = s.trace := by
  induction n with
  | zero => rfl
  | succ n ih => exact ih
@[simp] theorem zeroCells_hostQueue (st : BitVec 1) (n : Nat) (s : State) : (zeroCells st n s).hostQueue = s.hostQueue := by
  induction n with
  | zero => rfl
  | succ n ih => exact ih
@[simp] theorem zeroCells_schedule (st : BitVec 1) (n : Nat) (s : State) : (zeroCells st n s).schedule = s.schedule := by
  induction n with
  | zero => rfl
  | succ n ih => exact ih
@[simp] theorem zeroCells_choices (st : BitVec 1) (n : Nat) (s : State) : (zeroCells st n s).choices = s.choices := by
  induction n with
  | zero => rfl
  | succ n ih => exact ih

/-- The zero-fill of a store is the loop over its 512 cells. -/
theorem zeroStore_eq_zeroCells (st : BitVec 1) (s : State) : zeroStore st s = zeroCells st 512 s := by
  unfold zeroStore
  rfl

/-! What zeroStore leaves and makes of each field. -/
@[simp] theorem zeroStore_frontSel (st : BitVec 1) (s : State) : (zeroStore st s).frontSel = s.frontSel := by
  rw [zeroStore_eq_zeroCells, zeroCells_frontSel]
@[simp] theorem zeroStore_pending (st : BitVec 1) (s : State) : (zeroStore st s).pending = s.pending := by
  rw [zeroStore_eq_zeroCells, zeroCells_pending]
@[simp] theorem zeroStore_bitIdx (st : BitVec 1) (s : State) : (zeroStore st s).bitIdx = s.bitIdx := by
  rw [zeroStore_eq_zeroCells, zeroCells_bitIdx]
@[simp] theorem zeroStore_rowIdx (st : BitVec 1) (s : State) : (zeroStore st s).rowIdx = s.rowIdx := by
  rw [zeroStore_eq_zeroCells, zeroCells_rowIdx]
@[simp] theorem zeroStore_tmrEn (st : BitVec 1) (s : State) : (zeroStore st s).tmrEn = s.tmrEn := by
  rw [zeroStore_eq_zeroCells, zeroCells_tmrEn]
@[simp] theorem zeroStore_tmrIen (st : BitVec 1) (s : State) : (zeroStore st s).tmrIen = s.tmrIen := by
  rw [zeroStore_eq_zeroCells, zeroCells_tmrIen]
@[simp] theorem zeroStore_tmrCnt (st : BitVec 1) (s : State) : (zeroStore st s).tmrCnt = s.tmrCnt := by
  rw [zeroStore_eq_zeroCells, zeroCells_tmrCnt]
@[simp] theorem zeroStore_tmrPre (st : BitVec 1) (s : State) : (zeroStore st s).tmrPre = s.tmrPre := by
  rw [zeroStore_eq_zeroCells, zeroCells_tmrPre]
@[simp] theorem zeroStore_tmrRc (st : BitVec 1) (s : State) : (zeroStore st s).tmrRc = s.tmrRc := by
  rw [zeroStore_eq_zeroCells, zeroCells_tmrRc]
@[simp] theorem zeroStore_tickPending (st : BitVec 1) (s : State) : (zeroStore st s).tickPending = s.tickPending := by
  rw [zeroStore_eq_zeroCells, zeroCells_tickPending]
@[simp] theorem zeroStore_tickOverrun (st : BitVec 1) (s : State) : (zeroStore st s).tickOverrun = s.tickOverrun := by
  rw [zeroStore_eq_zeroCells, zeroCells_tickOverrun]
@[simp] theorem zeroStore_cmdFault (st : BitVec 1) (s : State) : (zeroStore st s).cmdFault = s.cmdFault := by
  rw [zeroStore_eq_zeroCells, zeroCells_cmdFault]
@[simp] theorem zeroStore_faultOp (st : BitVec 1) (s : State) : (zeroStore st s).faultOp = s.faultOp := by
  rw [zeroStore_eq_zeroCells, zeroCells_faultOp]
@[simp] theorem zeroStore_pins (st : BitVec 1) (s : State) : (zeroStore st s).pins = s.pins := by
  rw [zeroStore_eq_zeroCells, zeroCells_pins]
@[simp] theorem zeroStore_portHead (st : BitVec 1) (s : State) : (zeroStore st s).portHead = s.portHead := by
  rw [zeroStore_eq_zeroCells, zeroCells_portHead]
@[simp] theorem zeroStore_rspPort (st : BitVec 1) (s : State) : (zeroStore st s).rspPort = s.rspPort := by
  rw [zeroStore_eq_zeroCells, zeroCells_rspPort]
@[simp] theorem zeroStore_responses (st : BitVec 1) (s : State) : (zeroStore st s).responses = s.responses := by
  rw [zeroStore_eq_zeroCells, zeroCells_responses]
@[simp] theorem zeroStore_trace (st : BitVec 1) (s : State) : (zeroStore st s).trace = s.trace := by
  rw [zeroStore_eq_zeroCells, zeroCells_trace]
@[simp] theorem zeroStore_hostQueue (st : BitVec 1) (s : State) : (zeroStore st s).hostQueue = s.hostQueue := by
  rw [zeroStore_eq_zeroCells, zeroCells_hostQueue]
@[simp] theorem zeroStore_schedule (st : BitVec 1) (s : State) : (zeroStore st s).schedule = s.schedule := by
  rw [zeroStore_eq_zeroCells, zeroCells_schedule]
@[simp] theorem zeroStore_choices (st : BitVec 1) (s : State) : (zeroStore st s).choices = s.choices := by
  rw [zeroStore_eq_zeroCells, zeroCells_choices]

/-! What pinWrites leaves and makes of each field. -/
@[simp] theorem pinWrites_mem (ws : List (Pin × Bool)) (s : State) : (pinWrites ws s).mem = s.mem := by
  induction ws generalizing s with
  | nil => rfl
  | cons w ws ih => exact ih _
@[simp] theorem pinWrites_frontSel (ws : List (Pin × Bool)) (s : State) : (pinWrites ws s).frontSel = s.frontSel := by
  induction ws generalizing s with
  | nil => rfl
  | cons w ws ih => exact ih _
@[simp] theorem pinWrites_pending (ws : List (Pin × Bool)) (s : State) : (pinWrites ws s).pending = s.pending := by
  induction ws generalizing s with
  | nil => rfl
  | cons w ws ih => exact ih _
@[simp] theorem pinWrites_bitIdx (ws : List (Pin × Bool)) (s : State) : (pinWrites ws s).bitIdx = s.bitIdx := by
  induction ws generalizing s with
  | nil => rfl
  | cons w ws ih => exact ih _
@[simp] theorem pinWrites_rowIdx (ws : List (Pin × Bool)) (s : State) : (pinWrites ws s).rowIdx = s.rowIdx := by
  induction ws generalizing s with
  | nil => rfl
  | cons w ws ih => exact ih _
@[simp] theorem pinWrites_tmrEn (ws : List (Pin × Bool)) (s : State) : (pinWrites ws s).tmrEn = s.tmrEn := by
  induction ws generalizing s with
  | nil => rfl
  | cons w ws ih => exact ih _
@[simp] theorem pinWrites_tmrIen (ws : List (Pin × Bool)) (s : State) : (pinWrites ws s).tmrIen = s.tmrIen := by
  induction ws generalizing s with
  | nil => rfl
  | cons w ws ih => exact ih _
@[simp] theorem pinWrites_tmrCnt (ws : List (Pin × Bool)) (s : State) : (pinWrites ws s).tmrCnt = s.tmrCnt := by
  induction ws generalizing s with
  | nil => rfl
  | cons w ws ih => exact ih _
@[simp] theorem pinWrites_tmrPre (ws : List (Pin × Bool)) (s : State) : (pinWrites ws s).tmrPre = s.tmrPre := by
  induction ws generalizing s with
  | nil => rfl
  | cons w ws ih => exact ih _
@[simp] theorem pinWrites_tmrRc (ws : List (Pin × Bool)) (s : State) : (pinWrites ws s).tmrRc = s.tmrRc := by
  induction ws generalizing s with
  | nil => rfl
  | cons w ws ih => exact ih _
@[simp] theorem pinWrites_tickPending (ws : List (Pin × Bool)) (s : State) : (pinWrites ws s).tickPending = s.tickPending := by
  induction ws generalizing s with
  | nil => rfl
  | cons w ws ih => exact ih _
@[simp] theorem pinWrites_tickOverrun (ws : List (Pin × Bool)) (s : State) : (pinWrites ws s).tickOverrun = s.tickOverrun := by
  induction ws generalizing s with
  | nil => rfl
  | cons w ws ih => exact ih _
@[simp] theorem pinWrites_cmdFault (ws : List (Pin × Bool)) (s : State) : (pinWrites ws s).cmdFault = s.cmdFault := by
  induction ws generalizing s with
  | nil => rfl
  | cons w ws ih => exact ih _
@[simp] theorem pinWrites_faultOp (ws : List (Pin × Bool)) (s : State) : (pinWrites ws s).faultOp = s.faultOp := by
  induction ws generalizing s with
  | nil => rfl
  | cons w ws ih => exact ih _
@[simp] theorem pinWrites_portHead (ws : List (Pin × Bool)) (s : State) : (pinWrites ws s).portHead = s.portHead := by
  induction ws generalizing s with
  | nil => rfl
  | cons w ws ih => exact ih _
@[simp] theorem pinWrites_rspPort (ws : List (Pin × Bool)) (s : State) : (pinWrites ws s).rspPort = s.rspPort := by
  induction ws generalizing s with
  | nil => rfl
  | cons w ws ih => exact ih _
@[simp] theorem pinWrites_responses (ws : List (Pin × Bool)) (s : State) : (pinWrites ws s).responses = s.responses := by
  induction ws generalizing s with
  | nil => rfl
  | cons w ws ih => exact ih _
@[simp] theorem pinWrites_hostQueue (ws : List (Pin × Bool)) (s : State) : (pinWrites ws s).hostQueue = s.hostQueue := by
  induction ws generalizing s with
  | nil => rfl
  | cons w ws ih => exact ih _
@[simp] theorem pinWrites_schedule (ws : List (Pin × Bool)) (s : State) : (pinWrites ws s).schedule = s.schedule := by
  induction ws generalizing s with
  | nil => rfl
  | cons w ws ih => exact ih _
@[simp] theorem pinWrites_choices (ws : List (Pin × Bool)) (s : State) : (pinWrites ws s).choices = s.choices := by
  induction ws generalizing s with
  | nil => rfl
  | cons w ws ih => exact ih _

/-! What rowout leaves and makes of each field. -/
@[simp] theorem rowout_mem (b : BitVec 2) (r : BitVec 3) (s : State) : (rowout b r s).mem = s.mem := by simp [rowout]
@[simp] theorem rowout_frontSel (b : BitVec 2) (r : BitVec 3) (s : State) : (rowout b r s).frontSel = s.frontSel := by simp [rowout]
@[simp] theorem rowout_pending (b : BitVec 2) (r : BitVec 3) (s : State) : (rowout b r s).pending = s.pending := by simp [rowout]
@[simp] theorem rowout_bitIdx (b : BitVec 2) (r : BitVec 3) (s : State) : (rowout b r s).bitIdx = s.bitIdx := by simp [rowout]
@[simp] theorem rowout_rowIdx (b : BitVec 2) (r : BitVec 3) (s : State) : (rowout b r s).rowIdx = s.rowIdx := by simp [rowout]
@[simp] theorem rowout_tmrEn (b : BitVec 2) (r : BitVec 3) (s : State) : (rowout b r s).tmrEn = s.tmrEn := by simp [rowout]
@[simp] theorem rowout_tmrIen (b : BitVec 2) (r : BitVec 3) (s : State) : (rowout b r s).tmrIen = s.tmrIen := by simp [rowout]
@[simp] theorem rowout_tmrCnt (b : BitVec 2) (r : BitVec 3) (s : State) : (rowout b r s).tmrCnt = s.tmrCnt := by simp [rowout]
@[simp] theorem rowout_tmrPre (b : BitVec 2) (r : BitVec 3) (s : State) : (rowout b r s).tmrPre = s.tmrPre := by simp [rowout]
@[simp] theorem rowout_tmrRc (b : BitVec 2) (r : BitVec 3) (s : State) : (rowout b r s).tmrRc = s.tmrRc := by simp [rowout]
@[simp] theorem rowout_tickPending (b : BitVec 2) (r : BitVec 3) (s : State) : (rowout b r s).tickPending = s.tickPending := by simp [rowout]
@[simp] theorem rowout_tickOverrun (b : BitVec 2) (r : BitVec 3) (s : State) : (rowout b r s).tickOverrun = s.tickOverrun := by simp [rowout]
@[simp] theorem rowout_cmdFault (b : BitVec 2) (r : BitVec 3) (s : State) : (rowout b r s).cmdFault = s.cmdFault := by simp [rowout]
@[simp] theorem rowout_faultOp (b : BitVec 2) (r : BitVec 3) (s : State) : (rowout b r s).faultOp = s.faultOp := by simp [rowout]
@[simp] theorem rowout_portHead (b : BitVec 2) (r : BitVec 3) (s : State) : (rowout b r s).portHead = s.portHead := by simp [rowout]
@[simp] theorem rowout_rspPort (b : BitVec 2) (r : BitVec 3) (s : State) : (rowout b r s).rspPort = s.rspPort := by simp [rowout]
@[simp] theorem rowout_responses (b : BitVec 2) (r : BitVec 3) (s : State) : (rowout b r s).responses = s.responses := by simp [rowout]
@[simp] theorem rowout_hostQueue (b : BitVec 2) (r : BitVec 3) (s : State) : (rowout b r s).hostQueue = s.hostQueue := by simp [rowout]
@[simp] theorem rowout_schedule (b : BitVec 2) (r : BitVec 3) (s : State) : (rowout b r s).schedule = s.schedule := by simp [rowout]
@[simp] theorem rowout_choices (b : BitVec 2) (r : BitVec 3) (s : State) : (rowout b r s).choices = s.choices := by simp [rowout]

/-! What swap leaves and makes of each field. -/
@[simp] theorem swap_bitIdx (s : State) : (swap s).bitIdx = s.bitIdx := by simp [swap]
@[simp] theorem swap_rowIdx (s : State) : (swap s).rowIdx = s.rowIdx := by simp [swap]
@[simp] theorem swap_tmrEn (s : State) : (swap s).tmrEn = s.tmrEn := by simp [swap]
@[simp] theorem swap_tmrIen (s : State) : (swap s).tmrIen = s.tmrIen := by simp [swap]
@[simp] theorem swap_tmrCnt (s : State) : (swap s).tmrCnt = s.tmrCnt := by simp [swap]
@[simp] theorem swap_tmrPre (s : State) : (swap s).tmrPre = s.tmrPre := by simp [swap]
@[simp] theorem swap_tmrRc (s : State) : (swap s).tmrRc = s.tmrRc := by simp [swap]
@[simp] theorem swap_tickPending (s : State) : (swap s).tickPending = s.tickPending := by simp [swap]
@[simp] theorem swap_tickOverrun (s : State) : (swap s).tickOverrun = s.tickOverrun := by simp [swap]
@[simp] theorem swap_cmdFault (s : State) : (swap s).cmdFault = s.cmdFault := by simp [swap]
@[simp] theorem swap_faultOp (s : State) : (swap s).faultOp = s.faultOp := by simp [swap]
@[simp] theorem swap_pins (s : State) : (swap s).pins = s.pins := by simp [swap]
@[simp] theorem swap_portHead (s : State) : (swap s).portHead = s.portHead := by simp [swap]
@[simp] theorem swap_rspPort (s : State) : (swap s).rspPort = s.rspPort := by simp [swap]
@[simp] theorem swap_responses (s : State) : (swap s).responses = s.responses := by simp [swap]
@[simp] theorem swap_hostQueue (s : State) : (swap s).hostQueue = s.hostQueue := by simp [swap]
@[simp] theorem swap_schedule (s : State) : (swap s).schedule = s.schedule := by simp [swap]
@[simp] theorem swap_choices (s : State) : (swap s).choices = s.choices := by simp [swap]

/-! What expire leaves and makes of each field. -/
@[simp] theorem expire_mem (s : State) : (expire s).mem = s.mem := by
  unfold expire; split <;> [split; skip] <;> rfl
@[simp] theorem expire_frontSel (s : State) : (expire s).frontSel = s.frontSel := by
  unfold expire; split <;> [split; skip] <;> rfl
@[simp] theorem expire_pending (s : State) : (expire s).pending = s.pending := by
  unfold expire; split <;> [split; skip] <;> rfl
@[simp] theorem expire_bitIdx (s : State) : (expire s).bitIdx = s.bitIdx := by
  unfold expire; split <;> [split; skip] <;> rfl
@[simp] theorem expire_rowIdx (s : State) : (expire s).rowIdx = s.rowIdx := by
  unfold expire; split <;> [split; skip] <;> rfl
@[simp] theorem expire_tmrEn (s : State) : (expire s).tmrEn = s.tmrEn := by
  unfold expire; split <;> [split; skip] <;> rfl
@[simp] theorem expire_tmrIen (s : State) : (expire s).tmrIen = s.tmrIen := by
  unfold expire; split <;> [split; skip] <;> rfl
@[simp] theorem expire_tmrCnt (s : State) : (expire s).tmrCnt = s.tmrCnt := by
  unfold expire; split <;> [split; skip] <;> rfl
@[simp] theorem expire_tmrPre (s : State) : (expire s).tmrPre = s.tmrPre := by
  unfold expire; split <;> [split; skip] <;> rfl
@[simp] theorem expire_tmrRc (s : State) : (expire s).tmrRc = s.tmrRc := by
  unfold expire; split <;> [split; skip] <;> rfl
@[simp] theorem expire_cmdFault (s : State) : (expire s).cmdFault = s.cmdFault := by
  unfold expire; split <;> [split; skip] <;> rfl
@[simp] theorem expire_faultOp (s : State) : (expire s).faultOp = s.faultOp := by
  unfold expire; split <;> [split; skip] <;> rfl
@[simp] theorem expire_pins (s : State) : (expire s).pins = s.pins := by
  unfold expire; split <;> [split; skip] <;> rfl
@[simp] theorem expire_portHead (s : State) : (expire s).portHead = s.portHead := by
  unfold expire; split <;> [split; skip] <;> rfl
@[simp] theorem expire_rspPort (s : State) : (expire s).rspPort = s.rspPort := by
  unfold expire; split <;> [split; skip] <;> rfl
@[simp] theorem expire_responses (s : State) : (expire s).responses = s.responses := by
  unfold expire; split <;> [split; skip] <;> rfl
@[simp] theorem expire_trace (s : State) : (expire s).trace = s.trace := by
  unfold expire; split <;> [split; skip] <;> rfl
@[simp] theorem expire_hostQueue (s : State) : (expire s).hostQueue = s.hostQueue := by
  unfold expire; split <;> [split; skip] <;> rfl
@[simp] theorem expire_schedule (s : State) : (expire s).schedule = s.schedule := by
  unfold expire; split <;> [split; skip] <;> rfl
@[simp] theorem expire_choices (s : State) : (expire s).choices = s.choices := by
  unfold expire; split <;> [split; skip] <;> rfl

/-! What timerTick leaves and makes of each field. -/
@[simp] theorem timerTick_mem (rc : Word) (s : State) : (timerTick rc s).mem = s.mem := by
  unfold timerTick; split <;> simp
@[simp] theorem timerTick_frontSel (rc : Word) (s : State) : (timerTick rc s).frontSel = s.frontSel := by
  unfold timerTick; split <;> simp
@[simp] theorem timerTick_pending (rc : Word) (s : State) : (timerTick rc s).pending = s.pending := by
  unfold timerTick; split <;> simp
@[simp] theorem timerTick_bitIdx (rc : Word) (s : State) : (timerTick rc s).bitIdx = s.bitIdx := by
  unfold timerTick; split <;> simp
@[simp] theorem timerTick_rowIdx (rc : Word) (s : State) : (timerTick rc s).rowIdx = s.rowIdx := by
  unfold timerTick; split <;> simp
@[simp] theorem timerTick_tmrEn (rc : Word) (s : State) : (timerTick rc s).tmrEn = s.tmrEn := by
  unfold timerTick; split <;> simp
@[simp] theorem timerTick_tmrIen (rc : Word) (s : State) : (timerTick rc s).tmrIen = s.tmrIen := by
  unfold timerTick; split <;> simp
@[simp] theorem timerTick_tmrPre (rc : Word) (s : State) : (timerTick rc s).tmrPre = s.tmrPre := by
  unfold timerTick; split <;> simp
@[simp] theorem timerTick_tmrRc (rc : Word) (s : State) : (timerTick rc s).tmrRc = s.tmrRc := by
  unfold timerTick; split <;> simp
@[simp] theorem timerTick_cmdFault (rc : Word) (s : State) : (timerTick rc s).cmdFault = s.cmdFault := by
  unfold timerTick; split <;> simp
@[simp] theorem timerTick_faultOp (rc : Word) (s : State) : (timerTick rc s).faultOp = s.faultOp := by
  unfold timerTick; split <;> simp
@[simp] theorem timerTick_pins (rc : Word) (s : State) : (timerTick rc s).pins = s.pins := by
  unfold timerTick; split <;> simp
@[simp] theorem timerTick_portHead (rc : Word) (s : State) : (timerTick rc s).portHead = s.portHead := by
  unfold timerTick; split <;> simp
@[simp] theorem timerTick_rspPort (rc : Word) (s : State) : (timerTick rc s).rspPort = s.rspPort := by
  unfold timerTick; split <;> simp
@[simp] theorem timerTick_responses (rc : Word) (s : State) : (timerTick rc s).responses = s.responses := by
  unfold timerTick; split <;> simp
@[simp] theorem timerTick_trace (rc : Word) (s : State) : (timerTick rc s).trace = s.trace := by
  unfold timerTick; split <;> simp
@[simp] theorem timerTick_hostQueue (rc : Word) (s : State) : (timerTick rc s).hostQueue = s.hostQueue := by
  unfold timerTick; split <;> simp
@[simp] theorem timerTick_schedule (rc : Word) (s : State) : (timerTick rc s).schedule = s.schedule := by
  unfold timerTick; split <;> simp
@[simp] theorem timerTick_choices (rc : Word) (s : State) : (timerTick rc s).choices = s.choices := by
  unfold timerTick; split <;> simp

/-! What prescale leaves and makes of each field. -/
@[simp] theorem prescale_mem (rc : Word) (s : State) : (prescale rc s).mem = s.mem := by
  unfold prescale; split <;> [split; skip] <;> simp
@[simp] theorem prescale_frontSel (rc : Word) (s : State) : (prescale rc s).frontSel = s.frontSel := by
  unfold prescale; split <;> [split; skip] <;> simp
@[simp] theorem prescale_pending (rc : Word) (s : State) : (prescale rc s).pending = s.pending := by
  unfold prescale; split <;> [split; skip] <;> simp
@[simp] theorem prescale_bitIdx (rc : Word) (s : State) : (prescale rc s).bitIdx = s.bitIdx := by
  unfold prescale; split <;> [split; skip] <;> simp
@[simp] theorem prescale_rowIdx (rc : Word) (s : State) : (prescale rc s).rowIdx = s.rowIdx := by
  unfold prescale; split <;> [split; skip] <;> simp
@[simp] theorem prescale_tmrEn (rc : Word) (s : State) : (prescale rc s).tmrEn = s.tmrEn := by
  unfold prescale; split <;> [split; skip] <;> simp
@[simp] theorem prescale_tmrIen (rc : Word) (s : State) : (prescale rc s).tmrIen = s.tmrIen := by
  unfold prescale; split <;> [split; skip] <;> simp
@[simp] theorem prescale_tmrRc (rc : Word) (s : State) : (prescale rc s).tmrRc = s.tmrRc := by
  unfold prescale; split <;> [split; skip] <;> simp
@[simp] theorem prescale_cmdFault (rc : Word) (s : State) : (prescale rc s).cmdFault = s.cmdFault := by
  unfold prescale; split <;> [split; skip] <;> simp
@[simp] theorem prescale_faultOp (rc : Word) (s : State) : (prescale rc s).faultOp = s.faultOp := by
  unfold prescale; split <;> [split; skip] <;> simp
@[simp] theorem prescale_pins (rc : Word) (s : State) : (prescale rc s).pins = s.pins := by
  unfold prescale; split <;> [split; skip] <;> simp
@[simp] theorem prescale_portHead (rc : Word) (s : State) : (prescale rc s).portHead = s.portHead := by
  unfold prescale; split <;> [split; skip] <;> simp
@[simp] theorem prescale_rspPort (rc : Word) (s : State) : (prescale rc s).rspPort = s.rspPort := by
  unfold prescale; split <;> [split; skip] <;> simp
@[simp] theorem prescale_responses (rc : Word) (s : State) : (prescale rc s).responses = s.responses := by
  unfold prescale; split <;> [split; skip] <;> simp
@[simp] theorem prescale_trace (rc : Word) (s : State) : (prescale rc s).trace = s.trace := by
  unfold prescale; split <;> [split; skip] <;> simp
@[simp] theorem prescale_hostQueue (rc : Word) (s : State) : (prescale rc s).hostQueue = s.hostQueue := by
  unfold prescale; split <;> [split; skip] <;> simp
@[simp] theorem prescale_schedule (rc : Word) (s : State) : (prescale rc s).schedule = s.schedule := by
  unfold prescale; split <;> [split; skip] <;> simp
@[simp] theorem prescale_choices (rc : Word) (s : State) : (prescale rc s).choices = s.choices := by
  unfold prescale; split <;> [split; skip] <;> simp

/-! What clockEdge leaves and makes of each field. -/
@[simp] theorem clockEdge_mem (rc : Word) (s : State) : (clockEdge rc s).mem = s.mem := by simp [clockEdge]
@[simp] theorem clockEdge_frontSel (rc : Word) (s : State) : (clockEdge rc s).frontSel = s.frontSel := by simp [clockEdge]
@[simp] theorem clockEdge_pending (rc : Word) (s : State) : (clockEdge rc s).pending = s.pending := by simp [clockEdge]
@[simp] theorem clockEdge_bitIdx (rc : Word) (s : State) : (clockEdge rc s).bitIdx = s.bitIdx := by simp [clockEdge]
@[simp] theorem clockEdge_rowIdx (rc : Word) (s : State) : (clockEdge rc s).rowIdx = s.rowIdx := by simp [clockEdge]
@[simp] theorem clockEdge_tmrEn (rc : Word) (s : State) : (clockEdge rc s).tmrEn = s.tmrEn := by simp [clockEdge]
@[simp] theorem clockEdge_tmrIen (rc : Word) (s : State) : (clockEdge rc s).tmrIen = s.tmrIen := by simp [clockEdge]
@[simp] theorem clockEdge_tmrRc (rc : Word) (s : State) : (clockEdge rc s).tmrRc = s.tmrRc := by simp [clockEdge]
@[simp] theorem clockEdge_cmdFault (rc : Word) (s : State) : (clockEdge rc s).cmdFault = s.cmdFault := by simp [clockEdge]
@[simp] theorem clockEdge_faultOp (rc : Word) (s : State) : (clockEdge rc s).faultOp = s.faultOp := by simp [clockEdge]
@[simp] theorem clockEdge_pins (rc : Word) (s : State) : (clockEdge rc s).pins = s.pins := by simp [clockEdge]
@[simp] theorem clockEdge_portHead (rc : Word) (s : State) : (clockEdge rc s).portHead = s.portHead := by simp [clockEdge]
@[simp] theorem clockEdge_responses (rc : Word) (s : State) : (clockEdge rc s).responses = s.responses := by simp [clockEdge]
@[simp] theorem clockEdge_trace (rc : Word) (s : State) : (clockEdge rc s).trace = s.trace := by simp [clockEdge]
@[simp] theorem clockEdge_hostQueue (rc : Word) (s : State) : (clockEdge rc s).hostQueue = s.hostQueue := by simp [clockEdge]
@[simp] theorem clockEdge_schedule (rc : Word) (s : State) : (clockEdge rc s).schedule = s.schedule := by simp [clockEdge]
@[simp] theorem clockEdge_choices (rc : Word) (s : State) : (clockEdge rc s).choices = s.choices := by simp [clockEdge]

/-! What advance leaves and makes of each field. -/
@[simp] theorem advance_tmrEn (s : State) : (advance s).tmrEn = s.tmrEn := by
  unfold advance; split <;> [skip; (split <;> [skip; split])] <;> simp
@[simp] theorem advance_tmrIen (s : State) : (advance s).tmrIen = s.tmrIen := by
  unfold advance; split <;> [skip; (split <;> [skip; split])] <;> simp
@[simp] theorem advance_tmrCnt (s : State) : (advance s).tmrCnt = s.tmrCnt := by
  unfold advance; split <;> [skip; (split <;> [skip; split])] <;> simp
@[simp] theorem advance_tmrPre (s : State) : (advance s).tmrPre = s.tmrPre := by
  unfold advance; split <;> [skip; (split <;> [skip; split])] <;> simp
@[simp] theorem advance_tmrRc (s : State) : (advance s).tmrRc = s.tmrRc := by
  unfold advance; split <;> [skip; (split <;> [skip; split])] <;> simp
@[simp] theorem advance_tickPending (s : State) : (advance s).tickPending = s.tickPending := by
  unfold advance; split <;> [skip; (split <;> [skip; split])] <;> simp
@[simp] theorem advance_tickOverrun (s : State) : (advance s).tickOverrun = s.tickOverrun := by
  unfold advance; split <;> [skip; (split <;> [skip; split])] <;> simp
@[simp] theorem advance_cmdFault (s : State) : (advance s).cmdFault = s.cmdFault := by
  unfold advance; split <;> [skip; (split <;> [skip; split])] <;> simp
@[simp] theorem advance_faultOp (s : State) : (advance s).faultOp = s.faultOp := by
  unfold advance; split <;> [skip; (split <;> [skip; split])] <;> simp
@[simp] theorem advance_pins (s : State) : (advance s).pins = s.pins := by
  unfold advance; split <;> [skip; (split <;> [skip; split])] <;> simp
@[simp] theorem advance_portHead (s : State) : (advance s).portHead = s.portHead := by
  unfold advance; split <;> [skip; (split <;> [skip; split])] <;> simp
@[simp] theorem advance_rspPort (s : State) : (advance s).rspPort = s.rspPort := by
  unfold advance; split <;> [skip; (split <;> [skip; split])] <;> simp
@[simp] theorem advance_responses (s : State) : (advance s).responses = s.responses := by
  unfold advance; split <;> [skip; (split <;> [skip; split])] <;> simp
@[simp] theorem advance_hostQueue (s : State) : (advance s).hostQueue = s.hostQueue := by
  unfold advance; split <;> [skip; (split <;> [skip; split])] <;> simp
@[simp] theorem advance_schedule (s : State) : (advance s).schedule = s.schedule := by
  unfold advance; split <;> [skip; (split <;> [skip; split])] <;> simp
@[simp] theorem advance_choices (s : State) : (advance s).choices = s.choices := by
  unfold advance; split <;> [skip; (split <;> [skip; split])] <;> simp

/-! What tickBody leaves and makes of each field. -/
@[simp] theorem tickBody_tmrEn (s : State) : (tickBody s).tmrEn = s.tmrEn := by simp [tickBody]
@[simp] theorem tickBody_tmrCnt (s : State) : (tickBody s).tmrCnt = s.tmrCnt := by simp [tickBody]
@[simp] theorem tickBody_tmrPre (s : State) : (tickBody s).tmrPre = s.tmrPre := by simp [tickBody]
@[simp] theorem tickBody_tickOverrun (s : State) : (tickBody s).tickOverrun = s.tickOverrun := by simp [tickBody]
@[simp] theorem tickBody_cmdFault (s : State) : (tickBody s).cmdFault = s.cmdFault := by simp [tickBody]
@[simp] theorem tickBody_faultOp (s : State) : (tickBody s).faultOp = s.faultOp := by simp [tickBody]
@[simp] theorem tickBody_portHead (s : State) : (tickBody s).portHead = s.portHead := by simp [tickBody]
@[simp] theorem tickBody_rspPort (s : State) : (tickBody s).rspPort = s.rspPort := by simp [tickBody]
@[simp] theorem tickBody_responses (s : State) : (tickBody s).responses = s.responses := by simp [tickBody]
@[simp] theorem tickBody_hostQueue (s : State) : (tickBody s).hostQueue = s.hostQueue := by simp [tickBody]
@[simp] theorem tickBody_schedule (s : State) : (tickBody s).schedule = s.schedule := by simp [tickBody]
@[simp] theorem tickBody_choices (s : State) : (tickBody s).choices = s.choices := by simp [tickBody]

/-! What tick leaves and makes of each field. -/
@[simp] theorem tick_tmrEn (s : State) : (tick s).tmrEn = s.tmrEn := by unfold tick; split <;> simp
@[simp] theorem tick_tmrCnt (s : State) : (tick s).tmrCnt = s.tmrCnt := by unfold tick; split <;> simp
@[simp] theorem tick_tmrPre (s : State) : (tick s).tmrPre = s.tmrPre := by unfold tick; split <;> simp
@[simp] theorem tick_tickOverrun (s : State) : (tick s).tickOverrun = s.tickOverrun := by unfold tick; split <;> simp
@[simp] theorem tick_cmdFault (s : State) : (tick s).cmdFault = s.cmdFault := by unfold tick; split <;> simp
@[simp] theorem tick_faultOp (s : State) : (tick s).faultOp = s.faultOp := by unfold tick; split <;> simp
@[simp] theorem tick_portHead (s : State) : (tick s).portHead = s.portHead := by unfold tick; split <;> simp
@[simp] theorem tick_rspPort (s : State) : (tick s).rspPort = s.rspPort := by unfold tick; split <;> simp
@[simp] theorem tick_responses (s : State) : (tick s).responses = s.responses := by unfold tick; split <;> simp
@[simp] theorem tick_hostQueue (s : State) : (tick s).hostQueue = s.hostQueue := by unfold tick; split <;> simp
@[simp] theorem tick_schedule (s : State) : (tick s).schedule = s.schedule := by unfold tick; split <;> simp
@[simp] theorem tick_choices (s : State) : (tick s).choices = s.choices := by unfold tick; split <;> simp

/-! What sendWord leaves and makes of each field. -/
@[simp] theorem sendWord_mem (w : Word) (s : State) : (sendWord w s).mem = s.mem := rfl
@[simp] theorem sendWord_frontSel (w : Word) (s : State) : (sendWord w s).frontSel = s.frontSel := rfl
@[simp] theorem sendWord_pending (w : Word) (s : State) : (sendWord w s).pending = s.pending := rfl
@[simp] theorem sendWord_bitIdx (w : Word) (s : State) : (sendWord w s).bitIdx = s.bitIdx := rfl
@[simp] theorem sendWord_rowIdx (w : Word) (s : State) : (sendWord w s).rowIdx = s.rowIdx := rfl
@[simp] theorem sendWord_tmrEn (w : Word) (s : State) : (sendWord w s).tmrEn = s.tmrEn := rfl
@[simp] theorem sendWord_tmrIen (w : Word) (s : State) : (sendWord w s).tmrIen = s.tmrIen := rfl
@[simp] theorem sendWord_tmrCnt (w : Word) (s : State) : (sendWord w s).tmrCnt = s.tmrCnt := rfl
@[simp] theorem sendWord_tmrPre (w : Word) (s : State) : (sendWord w s).tmrPre = s.tmrPre := rfl
@[simp] theorem sendWord_tmrRc (w : Word) (s : State) : (sendWord w s).tmrRc = s.tmrRc := rfl
@[simp] theorem sendWord_tickPending (w : Word) (s : State) : (sendWord w s).tickPending = s.tickPending := rfl
@[simp] theorem sendWord_tickOverrun (w : Word) (s : State) : (sendWord w s).tickOverrun = s.tickOverrun := rfl
@[simp] theorem sendWord_cmdFault (w : Word) (s : State) : (sendWord w s).cmdFault = s.cmdFault := rfl
@[simp] theorem sendWord_faultOp (w : Word) (s : State) : (sendWord w s).faultOp = s.faultOp := rfl
@[simp] theorem sendWord_pins (w : Word) (s : State) : (sendWord w s).pins = s.pins := rfl
@[simp] theorem sendWord_portHead (w : Word) (s : State) : (sendWord w s).portHead = s.portHead := rfl
@[simp] theorem sendWord_rspPort (w : Word) (s : State) : (sendWord w s).rspPort = s.rspPort := rfl
@[simp] theorem sendWord_responses (w : Word) (s : State) : (sendWord w s).responses = s.responses := rfl
@[simp] theorem sendWord_trace (w : Word) (s : State) : (sendWord w s).trace = s.trace := rfl
@[simp] theorem sendWord_hostQueue (w : Word) (s : State) : (sendWord w s).hostQueue = s.hostQueue ++ [w] := rfl
@[simp] theorem sendWord_schedule (w : Word) (s : State) : (sendWord w s).schedule = s.schedule := rfl
@[simp] theorem sendWord_choices (w : Word) (s : State) : (sendWord w s).choices = s.choices := rfl

/-! What presentWord leaves and makes of each field. -/
@[simp] theorem presentWord_mem (s : State) : (presentWord s).mem = s.mem := by unfold presentWord; split <;> rfl
@[simp] theorem presentWord_frontSel (s : State) : (presentWord s).frontSel = s.frontSel := by unfold presentWord; split <;> rfl
@[simp] theorem presentWord_pending (s : State) : (presentWord s).pending = s.pending := by unfold presentWord; split <;> rfl
@[simp] theorem presentWord_bitIdx (s : State) : (presentWord s).bitIdx = s.bitIdx := by unfold presentWord; split <;> rfl
@[simp] theorem presentWord_rowIdx (s : State) : (presentWord s).rowIdx = s.rowIdx := by unfold presentWord; split <;> rfl
@[simp] theorem presentWord_tmrEn (s : State) : (presentWord s).tmrEn = s.tmrEn := by unfold presentWord; split <;> rfl
@[simp] theorem presentWord_tmrIen (s : State) : (presentWord s).tmrIen = s.tmrIen := by unfold presentWord; split <;> rfl
@[simp] theorem presentWord_tmrCnt (s : State) : (presentWord s).tmrCnt = s.tmrCnt := by unfold presentWord; split <;> rfl
@[simp] theorem presentWord_tmrPre (s : State) : (presentWord s).tmrPre = s.tmrPre := by unfold presentWord; split <;> rfl
@[simp] theorem presentWord_tmrRc (s : State) : (presentWord s).tmrRc = s.tmrRc := by unfold presentWord; split <;> rfl
@[simp] theorem presentWord_tickPending (s : State) : (presentWord s).tickPending = s.tickPending := by unfold presentWord; split <;> rfl
@[simp] theorem presentWord_tickOverrun (s : State) : (presentWord s).tickOverrun = s.tickOverrun := by unfold presentWord; split <;> rfl
@[simp] theorem presentWord_cmdFault (s : State) : (presentWord s).cmdFault = s.cmdFault := by unfold presentWord; split <;> rfl
@[simp] theorem presentWord_faultOp (s : State) : (presentWord s).faultOp = s.faultOp := by unfold presentWord; split <;> rfl
@[simp] theorem presentWord_pins (s : State) : (presentWord s).pins = s.pins := by unfold presentWord; split <;> rfl
@[simp] theorem presentWord_rspPort (s : State) : (presentWord s).rspPort = s.rspPort := by unfold presentWord; split <;> rfl
@[simp] theorem presentWord_responses (s : State) : (presentWord s).responses = s.responses := by unfold presentWord; split <;> rfl
@[simp] theorem presentWord_trace (s : State) : (presentWord s).trace = s.trace := by unfold presentWord; split <;> rfl
@[simp] theorem presentWord_schedule (s : State) : (presentWord s).schedule = s.schedule := by unfold presentWord; split <;> rfl
@[simp] theorem presentWord_choices (s : State) : (presentWord s).choices = s.choices := by unfold presentWord; split <;> rfl

/-! What spendMove leaves and makes of each field. -/
@[simp] theorem spendMove_mem (s : State) : (spendMove s).mem = s.mem := by unfold spendMove; split <;> rfl
@[simp] theorem spendMove_frontSel (s : State) : (spendMove s).frontSel = s.frontSel := by unfold spendMove; split <;> rfl
@[simp] theorem spendMove_pending (s : State) : (spendMove s).pending = s.pending := by unfold spendMove; split <;> rfl
@[simp] theorem spendMove_bitIdx (s : State) : (spendMove s).bitIdx = s.bitIdx := by unfold spendMove; split <;> rfl
@[simp] theorem spendMove_rowIdx (s : State) : (spendMove s).rowIdx = s.rowIdx := by unfold spendMove; split <;> rfl
@[simp] theorem spendMove_tmrEn (s : State) : (spendMove s).tmrEn = s.tmrEn := by unfold spendMove; split <;> rfl
@[simp] theorem spendMove_tmrIen (s : State) : (spendMove s).tmrIen = s.tmrIen := by unfold spendMove; split <;> rfl
@[simp] theorem spendMove_tmrCnt (s : State) : (spendMove s).tmrCnt = s.tmrCnt := by unfold spendMove; split <;> rfl
@[simp] theorem spendMove_tmrPre (s : State) : (spendMove s).tmrPre = s.tmrPre := by unfold spendMove; split <;> rfl
@[simp] theorem spendMove_tmrRc (s : State) : (spendMove s).tmrRc = s.tmrRc := by unfold spendMove; split <;> rfl
@[simp] theorem spendMove_tickPending (s : State) : (spendMove s).tickPending = s.tickPending := by unfold spendMove; split <;> rfl
@[simp] theorem spendMove_tickOverrun (s : State) : (spendMove s).tickOverrun = s.tickOverrun := by unfold spendMove; split <;> rfl
@[simp] theorem spendMove_cmdFault (s : State) : (spendMove s).cmdFault = s.cmdFault := by unfold spendMove; split <;> rfl
@[simp] theorem spendMove_faultOp (s : State) : (spendMove s).faultOp = s.faultOp := by unfold spendMove; split <;> rfl
@[simp] theorem spendMove_pins (s : State) : (spendMove s).pins = s.pins := by unfold spendMove; split <;> rfl
@[simp] theorem spendMove_portHead (s : State) : (spendMove s).portHead = s.portHead := by unfold spendMove; split <;> rfl
@[simp] theorem spendMove_rspPort (s : State) : (spendMove s).rspPort = s.rspPort := by unfold spendMove; split <;> rfl
@[simp] theorem spendMove_responses (s : State) : (spendMove s).responses = s.responses := by unfold spendMove; split <;> rfl
@[simp] theorem spendMove_trace (s : State) : (spendMove s).trace = s.trace := by unfold spendMove; split <;> rfl
@[simp] theorem spendMove_hostQueue (s : State) : (spendMove s).hostQueue = s.hostQueue := by unfold spendMove; split <;> rfl

end Sys2Proof.Machine
end

