-- ==== Sys2Proof/Laws/Memory.lean ====
section
/-! SUPPORT. The pixel space: a read after a write, and that every memory operation keeps the canonical form. -/

namespace Sys2Proof.Machine

@[simp] theorem Memory.read_nil (a : Nat) : Memory.read [] a = 0#16 := rfl

theorem Memory.read_cons (k : Nat) (u : Color) (m : Memory) (a : Nat) :
    Memory.read ((k, u) :: m) a = if k = a then u else Memory.read m a := rfl

/-- A cell that no entry lists reads as 0x0000. -/
theorem Memory.read_unlisted (m : Memory) (a : Nat) (h : ∀ p ∈ m, p.1 ≠ a) : m.read a = 0#16 := by
  induction m with
  | nil => rfl
  | cons p m ih =>
    obtain ⟨k, u⟩ := p
    have hk : k ≠ a := h (k, u) (by simp)
    rw [Memory.read_cons, if_neg hk]
    exact ih fun q hq => h q (by simp [hq])

/-- A write leaves every other cell alone, whatever the memory. -/
theorem Memory.read_write_ne (m : Memory) (a b : Nat) (v : Color) (h : b ≠ a) : (m.write a v).read b = m.read b := by
  induction m with
  | nil =>
    unfold Memory.write
    split <;> simp [Memory.read, Ne.symm h]
  | cons p m ih =>
    obtain ⟨k, u⟩ := p
    unfold Memory.write
    split
    · split <;> simp [Memory.read, Ne.symm h]
    · split
      · rename_i hk
        subst hk
        split <;> simp [Memory.read, Ne.symm h]
      · simp [Memory.read, ih]

/-- A cell reads as the value last written to it, in canonical memory. -/
theorem Memory.read_write_self (m : Memory) (a : Nat) (v : Color) (hm : m.Pairwise (fun p q => p.1 < q.1)) :
    (m.write a v).read a = v := by
  induction m with
  | nil =>
    unfold Memory.write
    split
    · simp_all
    · simp [Memory.read]
  | cons p m ih =>
    obtain ⟨k, u⟩ := p
    rw [List.pairwise_cons] at hm
    unfold Memory.write
    split
    · rename_i hlt
      split
      · rename_i hv
        rw [hv]
        apply Memory.read_unlisted
        intro q hq
        rcases List.mem_cons.1 hq with rfl | hq
        · exact Nat.ne_of_gt hlt
        · exact Nat.ne_of_gt (Nat.lt_trans hlt (hm.1 q hq))
      · simp [Memory.read]
    · split
      · rename_i hk
        subst hk
        split
        · rename_i hv
          rw [hv]
          exact Memory.read_unlisted _ _ fun q hq => Nat.ne_of_gt (hm.1 q hq)
        · simp [Memory.read]
      · rename_i hk
        rw [Memory.read_cons, if_neg (Ne.symm hk)]
        exact ih hm.2

theorem Memory.read_write (m : Memory) (hm : Memory.wf m) (a b : Nat) (v : Color) :
    (m.write a v).read b = if b = a then v else m.read b := by
  split
  · rename_i h
    rw [h]
    exact Memory.read_write_self m a v hm.1
  · rename_i h
    exact Memory.read_write_ne m a b v h

/-- What a write can leave in the list. -/
theorem Memory.mem_write (m : Memory) (a : Nat) (v : Color) (p : Nat × Color) (h : p ∈ m.write a v) :
    p ∈ m ∨ (p = (a, v) ∧ v ≠ 0#16) := by
  induction m with
  | nil =>
    unfold Memory.write at h
    split at h
    · simp at h
    · rename_i hv
      exact .inr ⟨by simpa using h, hv⟩
  | cons q m ih =>
    obtain ⟨k, u⟩ := q
    unfold Memory.write at h
    split at h
    · split at h
      · exact .inl h
      · rename_i hv
        rcases List.mem_cons.1 h with h | h
        · exact .inr ⟨h, hv⟩
        · exact .inl h
    · split at h
      · split at h
        · exact .inl (List.mem_cons_of_mem _ h)
        · rename_i hv
          rcases List.mem_cons.1 h with h | h
          · exact .inr ⟨h, hv⟩
          · exact .inl (List.mem_cons_of_mem _ h)
      · rcases List.mem_cons.1 h with h | h
        · exact .inl (by simp [h])
        · rcases ih h with h | h
          · exact .inl (List.mem_cons_of_mem _ h)
          · exact .inr h

/-- Every write below 1024 keeps the canonical form. -/
theorem Memory.write_wf (m : Memory) (a : Nat) (v : Color) (hm : Memory.wf m) (ha : a < 1024) : Memory.wf (m.write a v) := by
  refine ⟨?_, ?_⟩
  · obtain ⟨hs, -⟩ := hm
    induction m with
    | nil =>
      unfold Memory.write
      split <;> simp
    | cons p m ih =>
      obtain ⟨k, u⟩ := p
      have hs' := List.pairwise_cons.1 hs
      unfold Memory.write
      split
      · rename_i hlt
        split
        · exact hs
        · refine List.pairwise_cons.2 ⟨fun q hq => ?_, hs⟩
          rcases List.mem_cons.1 hq with rfl | hq
          · exact hlt
          · exact Nat.lt_trans hlt (hs'.1 q hq)
      · rename_i hge
        split
        · rename_i hk
          subst hk
          split
          · exact hs'.2
          · exact List.pairwise_cons.2 ⟨hs'.1, hs'.2⟩
        · rename_i hne
          refine List.pairwise_cons.2 ⟨fun q hq => ?_, ih hs'.2⟩
          rcases Memory.mem_write m a v q hq with hq | ⟨rfl, -⟩
          · exact hs'.1 q hq
          · show k < a
            omega
  · intro p hp
    rcases Memory.mem_write m a v p hp with hp | ⟨rfl, hv⟩
    · exact hm.2 p hp
    · exact ⟨hv, ha⟩

/-- Memories in canonical form that read alike are the same data. -/
theorem Memory.ext_of_wf (m m' : Memory) (hm : Memory.wf m) (hm' : Memory.wf m') (h : ∀ a, m.read a = m'.read a) :
    m = m' := by
  induction m generalizing m' with
  | nil =>
    cases m' with
    | nil => rfl
    | cons q m' =>
      exact absurd (by simpa [Memory.read] using (h q.1).symm) (hm'.2 q (by simp)).1
  | cons p m ih =>
    cases m' with
    | nil => exact absurd (by simpa [Memory.read] using h p.1) (hm.2 p (by simp)).1
    | cons q m' =>
      obtain ⟨k, u⟩ := p
      obtain ⟨k', u'⟩ := q
      have hs := List.pairwise_cons.1 hm.1
      have hs' := List.pairwise_cons.1 hm'.1
      have hu := (hm.2 (k, u) (by simp)).1
      have hu' := (hm'.2 (k', u') (by simp)).1
      have hk : k = k' := by
        rcases Nat.lt_trichotomy k k' with hlt | heq | hgt
        · have hz : Memory.read ((k', u') :: m') k = 0#16 := Memory.read_unlisted _ _ fun r hr => by
            rcases List.mem_cons.1 hr with rfl | hr
            · exact Nat.ne_of_gt hlt
            · exact Nat.ne_of_gt (Nat.lt_trans hlt (hs'.1 r hr))
          have := h k
          rw [hz, Memory.read_cons, if_pos rfl] at this
          exact absurd this hu
        · exact heq
        · have hz : Memory.read ((k, u) :: m) k' = 0#16 := Memory.read_unlisted _ _ fun r hr => by
            rcases List.mem_cons.1 hr with rfl | hr
            · exact Nat.ne_of_gt hgt
            · exact Nat.ne_of_gt (Nat.lt_trans hgt (hs.1 r hr))
          have := h k'
          rw [hz, Memory.read_cons, if_pos rfl] at this
          exact absurd this.symm hu'
      subst hk
      have huu : u = u' := by simpa [Memory.read] using h k
      subst huu
      have hmm : m = m' := by
        refine ih m' ⟨hs.2, fun r hr => hm.2 r (by simp [hr])⟩ ⟨hs'.2, fun r hr => hm'.2 r (by simp [hr])⟩ fun a => ?_
        by_cases ha : k = a
        · subst ha
          rw [Memory.read_unlisted m k fun r hr => Nat.ne_of_gt (hs.1 r hr),
            Memory.read_unlisted m' k fun r hr => Nat.ne_of_gt (hs'.1 r hr)]
        · simpa [Memory.read, ha] using h a
      rw [hmm]

theorem State.reset_mem_wf : Memory.wf State.reset.mem := by decide

theorem bit_cases (b : BitVec 1) : b = 0#1 ∨ b = 1#1 := by
  revert b
  decide

/-- Cells of a store have addresses in the pixel space. -/
theorem pixAddr_lt (st : BitVec 1) (i : Nat) (h : i < 512) : pixAddr st i < 1024 := by
  rcases bit_cases st with rfl | rfl <;> simp [pixAddr] <;> omega

/-- Distinct cells have distinct addresses. -/
theorem pixAddr_inj (st st' : BitVec 1) (i j : Nat) (hi : i < 512) (hj : j < 512) (h : pixAddr st i = pixAddr st' j) :
    st = st' ∧ i = j := by
  rcases bit_cases st with rfl | rfl <;> rcases bit_cases st' with rfl | rfl <;> simp [pixAddr] at h ⊢ <;> omega

/-- In-range coordinates name a cell of a store. -/
theorem cellIndex_lt (x y : Nat) (hx : x < 32) (hy : y < 16) : cellIndex x y < 512 := by
  unfold cellIndex
  omega

/-- Distinct in-range coordinates name distinct cells. -/
theorem cellIndex_inj (x y x' y' : Nat) (hx : x < 32) (hx' : x' < 32) (h : cellIndex x y = cellIndex x' y') :
    x = x' ∧ y = y' := by
  unfold cellIndex at h
  omega

theorem inRange_iff (x y : Int) : inRange x y = true ↔ 0 ≤ x ∧ x < 32 ∧ 0 ≤ y ∧ y < 16 := by
  simp [inRange, and_assoc]

theorem cellIndex_lt_of_inRange (x y : Int) (h : inRange x y = true) : cellIndex x.toNat y.toNat < 512 := by
  rw [inRange_iff] at h
  exact cellIndex_lt _ _ (by omega) (by omega)

/-- The back store is the other store. -/
theorem backStore_ne (s : State) : backStore s ≠ s.frontSel := by
  rcases bit_cases s.frontSel with h | h <;> rw [backStore, h] <;> decide

theorem pixWrite_mem_wf (st : BitVec 1) (i : Nat) (v : Color) (s : State) (hs : Memory.wf s.mem) (hi : i < 512) :
    Memory.wf (pixWrite st i v s).mem :=
  Memory.write_wf _ _ _ hs (pixAddr_lt st i hi)

theorem zeroCells_mem_wf (st : BitVec 1) (n : Nat) (s : State) (hs : Memory.wf s.mem) (hn : n ≤ 512) :
    Memory.wf (zeroCells st n s).mem := by
  induction n with
  | zero => exact hs
  | succ n ih => exact pixWrite_mem_wf st n _ _ (ih (by omega)) (by omega)

/-- What the zero-fill makes of each address. -/
theorem zeroCells_read (st : BitVec 1) (n : Nat) (s : State) (hs : Memory.wf s.mem) (hn : n ≤ 512) (a : Nat) :
    (zeroCells st n s).mem.read a = if pixAddr st 0 ≤ a ∧ a < pixAddr st 0 + n then 0#16 else s.mem.read a := by
  induction n with
  | zero =>
    have : ¬(pixAddr st 0 ≤ a ∧ a < pixAddr st 0 + 0) := by omega
    rw [if_neg this]
    rfl
  | succ n ih =>
    have hw := zeroCells_mem_wf st n s hs (by omega)
    show (Memory.write (zeroCells st n s).mem (pixAddr st n) 0#16).read a = _
    rw [Memory.read_write _ hw, ih (by omega)]
    have hp : pixAddr st n = pixAddr st 0 + n := by simp [pixAddr]
    rw [hp]
    by_cases ha : a = pixAddr st 0 + n
    · rw [if_pos ha, if_pos (by omega)]
    · rw [if_neg ha]
      by_cases hb : pixAddr st 0 ≤ a ∧ a < pixAddr st 0 + n
      · rw [if_pos hb, if_pos (by omega)]
      · rw [if_neg hb, if_neg (by omega)]

theorem zeroStore_mem_wf (st : BitVec 1) (s : State) (hs : Memory.wf s.mem) : Memory.wf (zeroStore st s).mem := by
  rw [zeroStore_eq_zeroCells]
  exact zeroCells_mem_wf st 512 s hs (Nat.le_refl _)

/-- What the zero-fill of a store makes of each address. -/
theorem zeroStore_read (st : BitVec 1) (s : State) (hs : Memory.wf s.mem) (a : Nat) :
    (zeroStore st s).mem.read a =
      if pixAddr st 0 ≤ a ∧ a < pixAddr st 0 + 512 then 0#16 else s.mem.read a := by
  rw [zeroStore_eq_zeroCells]
  exact zeroCells_read st 512 s hs (Nat.le_refl _) a

theorem swap_mem_wf (s : State) (hs : Memory.wf s.mem) : Memory.wf (swap s).mem := zeroStore_mem_wf _ _ hs

/-- What SWAP makes of each address: the old front reads zero, all else as before. -/
theorem swap_read (s : State) (hs : Memory.wf s.mem) (a : Nat) :
    (swap s).mem.read a =
      if pixAddr s.frontSel 0 ≤ a ∧ a < pixAddr s.frontSel 0 + 512 then 0#16 else s.mem.read a :=
  zeroStore_read s.frontSel { s with frontSel := 1#1 - s.frontSel } hs a

theorem advance_mem_wf (s : State) (hs : Memory.wf s.mem) : Memory.wf (advance s).mem := by
  unfold advance
  split
  · exact hs
  · split
    · exact hs
    · split
      · exact swap_mem_wf _ hs
      · exact hs

theorem tickBody_mem_wf (s : State) (hs : Memory.wf s.mem) : Memory.wf (tickBody s).mem :=
  advance_mem_wf _ (by simpa using hs)

theorem writeBackCell_mem_wf (x y : Int) (v : Color) (s : State) (hs : Memory.wf s.mem) (h : inRange x y = true) :
    Memory.wf (writeBackCell x y v s).mem :=
  pixWrite_mem_wf _ _ _ _ hs (cellIndex_lt_of_inRange x y h)

end Sys2Proof.Machine
end

