-- ==== Sys2Proof/Laws/Ops.lean ====
section
/-! SUPPORT. For each shared operation and each step, one lemma that says what it can do. -/

namespace Sys2Proof.Machine

@[simp] theorem swap_frontSel (s : State) : (swap s).frontSel = 1#1 - s.frontSel := by simp [swap]

@[simp] theorem swap_pending (s : State) : (swap s).pending = false := by simp [swap]

@[simp] theorem swap_trace (s : State) : (swap s).trace = s.trace ++ [.swap (1#1 - s.frontSel)] := by simp [swap]

/-- A read of a pin after a write of one. -/
theorem Pins.get_set (q : Pins) (p p' : Pin) (v : Bool) : (q.set p v).get p' = if p' = p then v else q.get p' := by
  cases p <;> cases p' <;> rfl

/-- Pins that read alike are the same. -/
theorem Pins.ext_of_get (q q' : Pins) (h : ∀ p, q.get p = q'.get p) : q = q' := by
  obtain ⟨r1, g1, b1, r2, g2, b2, a, b, c, clk, lat, oe⟩ := q
  obtain ⟨r1', g1', b1', r2', g2', b2', a', b', c', clk', lat', oe'⟩ := q'
  have h1 := h .r1
  have h2 := h .g1
  have h3 := h .b1
  have h4 := h .r2
  have h5 := h .g2
  have h6 := h .b2
  have h7 := h .a
  have h8 := h .b
  have h9 := h .c
  have h10 := h .clk
  have h11 := h .lat
  have h12 := h .oe
  simp only [Pins.get] at h1 h2 h3 h4 h5 h6 h7 h8 h9 h10 h11 h12
  simp [h1, h2, h3, h4, h5, h6, h7, h8, h9, h10, h11, h12]

/-- Pin writes append one event each, in order. -/
theorem pinWrites_trace (ws : List (Pin × Bool)) (s : State) :
    (pinWrites ws s).trace = s.trace ++ ws.map (fun w => Event.pin w.1 w.2) := by
  induction ws generalizing s with
  | nil => simp [pinWrites]
  | cons w ws ih => simp [pinWrites, ih]

/-- Pin writes leave each pin at the last level written. -/
theorem pinWrites_pins (ws : List (Pin × Bool)) (s : State) :
    (pinWrites ws s).pins = ws.foldl (fun q w => q.set w.1 w.2) s.pins := by
  induction ws generalizing s with
  | nil => rfl
  | cons w ws ih => simp [pinWrites, ih]

/-- Pin writes change the pins and the trace alone. -/
theorem pinWrites_eq (ws : List (Pin × Bool)) (s : State) :
    pinWrites ws s = { s with pins := (pinWrites ws s).pins, trace := (pinWrites ws s).trace } := by
  induction ws generalizing s with
  | nil => rfl
  | cons w ws ih => exact ih _

/-- ROWOUT changes the pins and the trace alone (40_scan_engine.md R94). -/
theorem rowout_eq (b : BitVec 2) (r : BitVec 3) (s : State) :
    rowout b r s = { s with pins := (rowout b r s).pins, trace := (rowout b r s).trace } := pinWrites_eq _ _

/-- The zero-fill changes the pixel space alone. -/
theorem zeroCells_eq (st : BitVec 1) (n : Nat) (s : State) :
    zeroCells st n s = { s with mem := (zeroCells st n s).mem } := by
  induction n with
  | zero => rfl
  | succ n ih => rw [zeroCells, ih]; rfl

theorem zeroStore_eq (st : BitVec 1) (s : State) : zeroStore st s = { s with mem := (zeroStore st s).mem } := by
  rw [zeroStore_eq_zeroCells]
  exact zeroCells_eq st 512 s

/-- What SWAP makes of the pixel space depends on the pixel space and the role selector alone. -/
theorem zeroCells_mem_congr (st : BitVec 1) (n : Nat) (s s' : State) (hm : s.mem = s'.mem) :
    (zeroCells st n s).mem = (zeroCells st n s').mem := by
  induction n with
  | zero => exact hm
  | succ n ih =>
    rw [zeroCells, zeroCells, pixWrite_mem, pixWrite_mem, ih]

theorem swap_mem_congr (s s' : State) (hm : s.mem = s'.mem) (hf : s.frontSel = s'.frontSel) :
    (swap s).mem = (swap s').mem := by
  simp only [swap, appendEvent]
  rw [zeroStore_eq_zeroCells, zeroStore_eq_zeroCells, hf]
  exact zeroCells_mem_congr _ _ _ _ hm

/-- SWAP changes the pixel space, the role selector, the request and the trace alone (40_scan_engine.md R110). -/
theorem swap_eq (s : State) :
    swap s = { s with
      mem := (swap s).mem, frontSel := 1#1 - s.frontSel, pending := false,
      trace := s.trace ++ [.swap (1#1 - s.frontSel)] } := by
  simp only [swap, appendEvent]
  rw [zeroStore_eq]

@[simp] theorem rowout_trace (b : BitVec 2) (r : BitVec 3) (s : State) :
    (rowout b r s).trace = s.trace ++ (rowoutWrites s b r).map (fun w => Event.pin w.1 w.2) := pinWrites_trace _ _

/-- What ROWOUT writes depends on the pixel space and the role selector alone. -/
theorem rowoutWrites_congr (s s' : State) (b : BitVec 2) (r : BitVec 3) (hm : s.mem = s'.mem)
    (hf : s.frontSel = s'.frontSel) : rowoutWrites s b r = rowoutWrites s' b r := by
  have h : columnWrites s b r = columnWrites s' b r := by
    funext col
    simp [columnWrites, frontCell, pixRead, hm, hf]
  simp [rowoutWrites, h]

/-- ADVANCE, case by case. -/
theorem advance_cases (s : State) :
    (s.bitIdx < 3#2 ∧ advance s = { s with bitIdx := s.bitIdx + 1#2 }) ∨
    (s.bitIdx = 3#2 ∧ s.rowIdx < 7#3 ∧ advance s = { s with bitIdx := 0#2, rowIdx := s.rowIdx + 1#3 }) ∨
    (s.bitIdx = 3#2 ∧ s.rowIdx = 7#3 ∧ s.pending = false ∧ advance s = { s with bitIdx := 0#2, rowIdx := 0#3 }) ∨
    (s.bitIdx = 3#2 ∧ s.rowIdx = 7#3 ∧ s.pending = true ∧ advance s = swap { s with bitIdx := 0#2, rowIdx := 0#3 }) := by
  have hb : ∀ b : BitVec 2, ¬b < 3#2 → b = 3#2 := by decide
  have hr : ∀ r : BitVec 3, ¬r < 7#3 → r = 7#3 := by decide
  by_cases h1 : s.bitIdx < 3#2
  · exact .inl ⟨h1, by rw [advance, if_pos h1]⟩
  · by_cases h2 : s.rowIdx < 7#3
    · exact .inr (.inl ⟨hb _ h1, h2, by rw [advance, if_neg h1, if_pos h2]⟩)
    · cases h3 : s.pending
      · exact .inr (.inr (.inl ⟨hb _ h1, hr _ h2, rfl, by rw [advance, if_neg h1, if_neg h2]; simp [h3]⟩))
      · exact .inr (.inr (.inr ⟨hb _ h1, hr _ h2, rfl, by rw [advance, if_neg h1, if_neg h2]; simp [h3]⟩))

/-- EXPIRE, case by case. -/
theorem expire_cases (s : State) :
    ((s.tmrEn = false ∨ s.tmrIen = false) ∧ expire s = s) ∨
    (s.tmrEn = true ∧ s.tmrIen = true ∧
      expire s = { s with tickOverrun := s.tickOverrun || s.tickPending, tickPending := true }) := by
  unfold expire
  cases s.tmrEn <;> cases s.tmrIen <;> simp

/-- A timer tick, case by case. -/
theorem timerTick_cases (rc : Word) (s : State) :
    (rc.toNat ≤ s.tmrCnt.toNat + 1 ∧ timerTick rc s = expire { s with tmrCnt := 0#32 }) ∨
    (s.tmrCnt.toNat + 1 < rc.toNat ∧ timerTick rc s = { s with tmrCnt := s.tmrCnt + 1#32 }) := by
  unfold timerTick
  by_cases h : s.tmrCnt.toNat + 1 ≥ rc.toNat
  · exact .inl ⟨h, if_pos h⟩
  · exact .inr ⟨by omega, if_neg h⟩

/-- The width of the prescaler holds every count below TIMER_DIV (10_state.md R21, R33). -/
theorem timerDiv_le_preWidth : (Config.timerDiv : Nat) ≤ 2 ^ preWidth := by
  unfold preWidth
  exact (Nat.le_pow_clog (by decide) _).trans (Nat.pow_le_pow_right (by decide) (Nat.le_max_right _ _))

/-- The prescaler, case by case, where it is in range (10_state.md R33). -/
theorem prescale_cases (rc : Word) (s : State) (hp : s.tmrPre < Config.timerDiv) :
    (s.tmrEn = false ∧ prescale rc s = s) ∨
    (s.tmrEn = true ∧ s.tmrPre + 1 = Config.timerDiv ∧ prescale rc s = timerTick rc { s with tmrPre := 0 }) ∨
    (s.tmrEn = true ∧ s.tmrPre + 1 < Config.timerDiv ∧ prescale rc s = { s with tmrPre := s.tmrPre + 1 }) := by
  cases h : s.tmrEn
  · exact .inl ⟨rfl, by simp [prescale, h]⟩
  · by_cases hd : s.tmrPre = (Config.timerDiv : Nat) - 1
    · exact .inr (.inl ⟨rfl, by omega, by simp only [prescale, h, if_true, if_pos hd]⟩)
    · have hlt : s.tmrPre + 1 < Config.timerDiv := by omega
      refine .inr (.inr ⟨rfl, hlt, ?_⟩)
      simp only [prescale, h, if_true, if_neg hd]
      rw [Nat.mod_eq_of_lt (Nat.lt_of_lt_of_le hlt timerDiv_le_preWidth)]

/-- A period is between 1 and 2^32 - 1 for every configuration (60_exceptions.md R155). -/
theorem quantizeWith_bounds (clkHz div us : Nat) :
    1 ≤ quantizeWith clkHz div us ∧ quantizeWith clkHz div us ≤ 2 ^ 32 - 1 := by
  unfold quantizeWith
  omega

theorem periodTicks_toNat (b : BitVec 2) :
    (periodTicks b).toNat = quantize (Config.basePeriodUs * 2 ^ b.toNat) := by
  have h := quantizeWith_bounds Config.timerClkHz Config.timerDiv (Config.basePeriodUs * 2 ^ b.toNat)
  simp only [periodTicks, quantize, BitVec.toNat_ofNat]
  omega

/-- The next states of a host command, case by case: nothing, one back cell, one response, the request, the timer's start, or
the fault record. -/
theorem exec_cases (i : Instr) (s t : State) (h : exec i s = .next t) :
    t = s ∨
    (∃ x y c, i = .setPixel x y c ∧ s.pending = false ∧ inRange x y = true ∧ t = writeBackCell x y c s) ∨
    (∃ v, t = respond v s) ∨
    (i = .refresh ∧ s.pending = false ∧ t = { s with pending := true }) ∨
    (i = .start ∧ s.tmrEn = false ∧ t = timerStart (periodTicks 0#2) s) ∨
    (∃ op, (op = 6#3 ∨ op = 7#3) ∧ t = raiseCmdFault op s) := by
  cases i with
  | nop =>
    injection h with h
    exact .inl h.symm
  | setPixel x y c =>
    simp only [exec, execSetPixel] at h
    split at h
    · injection h with h
      exact .inl h.symm
    · rename_i hp
      split at h
      · rename_i hr
        injection h with h
        exact .inr (.inl ⟨x, y, c, rfl, by simpa using hp, hr, h.symm⟩)
      · injection h with h
        exact .inl h.symm
  | getPixel x y =>
    simp only [exec, execGetPixel] at h
    split at h <;>
    · injection h with h
      exact .inr (.inr (.inl ⟨_, h.symm⟩))
  | refresh =>
    simp only [exec, execRefresh] at h
    split at h
    · injection h with h
      exact .inl h.symm
    · rename_i hp
      injection h with h
      exact .inr (.inr (.inr (.inl ⟨rfl, by simpa using hp, h.symm⟩)))
  | start =>
    simp only [exec, execStart] at h
    split at h
    · injection h with h
      exact .inl h.symm
    · rename_i hp
      injection h with h
      exact .inr (.inr (.inr (.inr (.inl ⟨rfl, by simpa using hp, h.symm⟩))))
  | status =>
    injection h with h
    exact .inr (.inr (.inl ⟨_, h.symm⟩))
  | rsvd6 =>
    injection h with h
    exact .inr (.inr (.inr (.inr (.inr ⟨6#3, .inl rfl, h.symm⟩))))
  | rsvd7 =>
    injection h with h
    exact .inr (.inr (.inr (.inr (.inr ⟨7#3, .inr rfl, h.symm⟩))))

/-- HostStep, case by case (41_host_commands.md R120). -/
theorem hostStep_cases (s t : State) (h : hostStep s = .next t) :
    t = s ∨
    (∃ w u, s.portHead = some w ∧ held (decode w) s = false ∧
      exec (decode w) { s with rspPort := none } = .next u ∧ t = { u with portHead := none }) := by
  unfold hostStep at h
  split at h
  · injection h with h
    exact .inl h.symm
  · rename_i w hw
    split at h
    · injection h with h
      exact .inl h.symm
    · rename_i hh
      refine .inr ⟨w, ?_⟩
      cases hx : exec (decode w) { s with rspPort := none } with
      | next u =>
        rw [hx] at h
        simp only [consumeHead] at h
        injection h with h
        exact ⟨u, hw, by simpa using hh, rfl, h.symm⟩
      | fault r => exact nomatch r
      | refused r =>
        rw [hx] at h
        simp only [consumeHead] at h
        exact nomatch h

/-- The next states of a move, case by case: the host's step, or what its mover's operation makes. -/
theorem takeMove_cases (m : Move) (s t : State) (h : takeMove m s = .next t) :
    (m = .present ∧ t = presentWord s) ∨
    ((m = .host ∨ (m = .boundary ∧ s.tickPending = false)) ∧ hostStep s = .next t) ∨
    (m = .expire ∧ t = expire s) ∨
    (m = .clk ∧ t = clockEdge s.tmrRc s) ∨
    ((m = .tick ∨ m = .boundary) ∧ s.tickPending = true ∧ t = tickBody s) ∨
    (m = .tickOnClk ∧ s.tickPending = true ∧ t = clockEdge s.tmrRc (tickBody s)) ∨
    ((m = .tick ∨ m = .tickOnClk) ∧ s.tickPending = false ∧ t = s) ∨
    (m = .reset ∧ t = resetBlock s) ∨
    (∃ w, m = .send w ∧ t = sendWord w s) := by
  cases m with
  | send w =>
    injection h with h
    exact .inr (.inr (.inr (.inr (.inr (.inr (.inr (.inr ⟨w, rfl, h.symm⟩)))))))
  | present =>
    injection h with h
    exact .inl ⟨rfl, h.symm⟩
  | host => exact .inr (.inl ⟨.inl rfl, h⟩)
  | expire =>
    injection h with h
    exact .inr (.inr (.inl ⟨rfl, h.symm⟩))
  | clk =>
    injection h with h
    exact .inr (.inr (.inr (.inl ⟨rfl, h.symm⟩)))
  | tick =>
    simp only [takeMove, tick] at h
    injection h with h
    split at h
    · rename_i hp
      exact .inr (.inr (.inr (.inr (.inl ⟨.inl rfl, hp, h.symm⟩))))
    · rename_i hp
      exact .inr (.inr (.inr (.inr (.inr (.inr (.inl ⟨.inl rfl, by simpa using hp, h.symm⟩))))))
  | tickOnClk =>
    simp only [takeMove, tickOnClk] at h
    injection h with h
    split at h
    · rename_i hp
      exact .inr (.inr (.inr (.inr (.inr (.inl ⟨rfl, hp, h.symm⟩)))))
    · rename_i hp
      exact .inr (.inr (.inr (.inr (.inr (.inr (.inl ⟨.inr rfl, by simpa using hp, h.symm⟩))))))
  | boundary =>
    simp only [takeMove, boundaryStep] at h
    split at h
    · rename_i hp
      injection h with h
      rw [tick, if_pos hp] at h
      exact .inr (.inr (.inr (.inr (.inl ⟨.inr rfl, hp, h.symm⟩))))
    · rename_i hp
      exact .inr (.inl ⟨.inr ⟨rfl, by simpa using hp⟩, h⟩)
  | reset =>
    injection h with h
    exact .inr (.inr (.inr (.inr (.inr (.inr (.inr (.inl ⟨rfl, h.symm⟩)))))))

/-- Decoding what a bus laid out as bytes is decoding the word (20_memory.md R55). -/
theorem wordOfBytes_bytesOfWord (w : Word) :
    wordOfBytes (w.extractLsb' 0 8) (w.extractLsb' 8 8) (w.extractLsb' 16 8) (w.extractLsb' 24 8) = w := by
  unfold wordOfBytes
  ext i hi
  simp only [BitVec.getElem_append, BitVec.getElem_extractLsb']
  split
  · rw [← BitVec.getLsbD_eq_getElem]
    simp
  · split
    · rw [← BitVec.getLsbD_eq_getElem]
      congr 1
      omega
    · split
      · rw [← BitVec.getLsbD_eq_getElem]
        congr 1
        omega
      · rw [← BitVec.getLsbD_eq_getElem]
        congr 1
        omega

end Sys2Proof.Machine
end

