-- ==== Sys2Proof/Laws/PerInstr.lean ====
section
/-! SUPPORT. A fact of every command as syntax, one lemma per constructor: its canonical word matches its row of the opcode
table (30_encoding.md R77), match under mask 0xE0000000. -/

namespace Sys2Proof.Laws

/-- The match value of each row of the opcode table (30_encoding.md R77). -/
def tableMatch : Instr → Word
  | .nop => 0x00000000#32
  | .setPixel _ _ _ => 0x20000000#32
  | .getPixel _ _ => 0x40000000#32
  | .refresh => 0x60000000#32
  | .start => 0x80000000#32
  | .status => 0xA0000000#32
  | .rsvd6 => 0xC0000000#32
  | .rsvd7 => 0xE0000000#32

/-- Under the table's mask only the opcode of a canonical word is left (30_encoding.md R77, R85). -/
theorem enc_masked (op : BitVec 3) (x y : Int) (c : Color) :
    enc op x y c &&& 0xE0000000#32 = op ++ 0#29 := by
  have hm : (0xE0000000#32 : Word) = (7#3 ++ 0#7 ++ 0#6 ++ 0#16 : BitVec 32) := by decide
  have hz : (op ++ 0#29 : BitVec 32) = op ++ 0#7 ++ 0#6 ++ 0#16 := by
    revert op
    decide
  have h7 : op &&& 7#3 = op := by
    revert op
    decide
  rw [hm, hz]
  unfold enc
  rw [BitVec.and_append, BitVec.and_append, BitVec.and_append, h7]
  simp

/-- The canonical word of a command matches its row (30_encoding.md R77). -/
def CanonicalWord.Statement (i : Instr) : Prop := encode i &&& 0xE0000000#32 = tableMatch i

theorem CanonicalWord.nop : CanonicalWord.Statement .nop := enc_masked 0 0 0 0

theorem CanonicalWord.setPixel (x y : Int) (color : Color) : CanonicalWord.Statement (.setPixel x y color) :=
  enc_masked 1 x y color

theorem CanonicalWord.getPixel (x y : Int) : CanonicalWord.Statement (.getPixel x y) := enc_masked 2 x y 0

theorem CanonicalWord.refresh : CanonicalWord.Statement .refresh := enc_masked 3 0 0 0

theorem CanonicalWord.start : CanonicalWord.Statement .start := enc_masked 4 0 0 0

theorem CanonicalWord.status : CanonicalWord.Statement .status := enc_masked 5 0 0 0

theorem CanonicalWord.rsvd6 : CanonicalWord.Statement .rsvd6 := enc_masked 6 0 0 0

theorem CanonicalWord.rsvd7 : CanonicalWord.Statement .rsvd7 := enc_masked 7 0 0 0

end Sys2Proof.Laws
end

