-- ==== Sys2Proof/Laws/Trace.lean ====
section
/-! SUPPORT. The readings of a trace over appended events, the layout of a ROWOUT's pin writes, and on which fields the
invariants depend. -/

namespace Sys2Proof.Machine

/-- How many TICKs of the frame sequence a trace shows since its last Swap or Reset, after n before it. -/
def frameTicksAfter : Nat → List Event → Nat
  | n, [] => n
  | n, .timerLoad _ :: es => frameTicksAfter (n + 1) es
  | _, .reset :: es => frameTicksAfter 0 es
  | n, .pin _ _ :: es => frameTicksAfter n es
  | n, .timerStart _ :: es => frameTicksAfter n es
  | _, .swap _ :: es => frameTicksAfter 0 es

theorem ticksAfter_append (es es' : List Event) (n : Nat) :
    ticksAfter n (es ++ es') = ticksAfter (ticksAfter n es) es' := by
  induction es generalizing n with
  | nil => rfl
  | cons e es ih => cases e <;> exact ih _

theorem frontAfter_append (es es' : List Event) (f : BitVec 1) :
    frontAfter f (es ++ es') = frontAfter (frontAfter f es) es' := by
  induction es generalizing f with
  | nil => rfl
  | cons e es ih => cases e <;> exact ih _

theorem pinsAfter_append (es es' : List Event) (q : Pins) :
    pinsAfter q (es ++ es') = pinsAfter (pinsAfter q es) es' := by
  induction es generalizing q with
  | nil => rfl
  | cons e es ih => cases e <;> exact ih _

theorem frameTicksAfter_append (es es' : List Event) (n : Nat) :
    frameTicksAfter n (es ++ es') = frameTicksAfter (frameTicksAfter n es) es' := by
  induction es generalizing n with
  | nil => rfl
  | cons e es ih => cases e <;> exact ih _

/-- A framed trace is framed part by part. -/
theorem framedTrace_append (es es' : List Event) (n : Nat) (f : BitVec 1) :
    FramedTrace n f (es ++ es') ↔
      FramedTrace n f es ∧ FramedTrace (frameTicksAfter n es) (frontAfter f es) es' := by
  induction es generalizing n f with
  | nil => simp [FramedTrace, frameTicksAfter, frontAfter]
  | cons e es ih => cases e <;> simp [FramedTrace, frameTicksAfter, frontAfter, ih, and_assoc]

/-- In a framed trace the frames have 32 TICKs each, so the TICKs since the last Swap and those since Reset agree modulo 32. -/
theorem frameTicksAfter_mod (es : List Event) (n m : Nat) (f : BitVec 1) (h : FramedTrace n f es) (hm : n % 32 = m % 32) :
    frameTicksAfter n es % 32 = ticksAfter m es % 32 := by
  induction es generalizing n m f with
  | nil => simpa [frameTicksAfter, ticksAfter] using hm
  | cons e es ih =>
    cases e <;> simp only [FramedTrace, frameTicksAfter, ticksAfter] at *
    · exact ih _ _ _ h hm
    · exact ih _ _ _ h.2 (by omega)
    · exact ih _ _ _ h hm
    · exact ih _ _ _ h.2.2.2 (by omega)
    · exact ih _ _ _ h rfl

/-- The events of pin writes. -/
def pinEvents (ws : List (Pin × Bool)) : List Event := ws.map fun w => Event.pin w.1 w.2

/-- Pin events are framed, and show no TICK and no Swap. -/
theorem framedTrace_pinEvents (ws : List (Pin × Bool)) (n : Nat) (f : BitVec 1) : FramedTrace n f (pinEvents ws) := by
  induction ws with
  | nil => trivial
  | cons w ws ih => exact ih

@[simp] theorem ticksAfter_pinEvents (ws : List (Pin × Bool)) (n : Nat) : ticksAfter n (pinEvents ws) = n := by
  induction ws with
  | nil => rfl
  | cons w ws ih => exact ih

@[simp] theorem frameTicksAfter_pinEvents (ws : List (Pin × Bool)) (n : Nat) : frameTicksAfter n (pinEvents ws) = n := by
  induction ws with
  | nil => rfl
  | cons w ws ih => exact ih

@[simp] theorem frontAfter_pinEvents (ws : List (Pin × Bool)) (f : BitVec 1) : frontAfter f (pinEvents ws) = f := by
  induction ws with
  | nil => rfl
  | cons w ws ih => exact ih

/-- Pin events show the levels that the writes leave. -/
theorem pinsAfter_pinEvents (ws : List (Pin × Bool)) (q : Pins) :
    pinsAfter q (pinEvents ws) = ws.foldl (fun q w => q.set w.1 w.2) q := by
  induction ws generalizing q with
  | nil => rfl
  | cons w ws ih => exact ih _

/-- A column has eight pin writes (40_scan_engine.md R99). -/
theorem columnWrites_length (s : State) (b : BitVec 2) (r : BitVec 3) (col : Nat) : (columnWrites s b r col).length = 8 := rfl

theorem columns_length (f : Nat → List (Pin × Bool)) (hf : ∀ col, (f col).length = 8) (n : Nat) :
    ((List.range n).flatMap f).length = 8 * n := by
  induction n with
  | zero => rfl
  | succ n ih =>
    rw [List.range_succ]
    simp [ih, hf]
    omega

/-- The writes of one column stand at eight times its number. -/
theorem columns_get (f : Nat → List (Pin × Bool)) (hf : ∀ col, (f col).length = 8) (n col : Nat) (h : col < n) :
    (((List.range n).flatMap f).drop (8 * col)).take 8 = f col := by
  induction n with
  | zero => omega
  | succ n ih =>
    rw [List.range_succ, List.flatMap_append]
    by_cases hc : col < n
    · rw [List.drop_append_of_le_length (by rw [columns_length f hf]; omega),
        List.take_append_of_le_length (by simp [columns_length f hf]; omega)]
      exact ih hc
    · obtain rfl : col = n := by omega
      rw [List.drop_append, columns_length f hf, List.drop_of_length_le (by rw [columns_length f hf])]
      simp [← hf col]

/-- ROWOUT has 263 pin writes (40_scan_engine.md R101). -/
theorem rowoutWrites_length (s : State) (b : BitVec 2) (r : BitVec 3) : (rowoutWrites s b r).length = 263 := by
  unfold rowoutWrites
  simp [columns_length _ (columnWrites_length s b r)]

theorem rowoutWrites_take (s : State) (b : BitVec 2) (r : BitVec 3) :
    (rowoutWrites s b r).take 5 =
      [(.a, r.getLsbD 0), (.b, r.getLsbD 1), (.c, r.getLsbD 2), (.oe, true), (.lat, true)] := by
  unfold rowoutWrites
  rfl

theorem rowoutWrites_column (s : State) (b : BitVec 2) (r : BitVec 3) (col : Nat) (h : col < 32) :
    ((rowoutWrites s b r).drop (5 + 8 * col)).take 8 = columnWrites s b r col := by
  have hf := columnWrites_length s b r
  unfold rowoutWrites
  rw [List.append_assoc, List.drop_append, List.drop_of_length_le (by simp)]
  simp only [List.length_cons, List.length_nil, List.nil_append]
  rw [show 5 + 8 * col - (0 + 1 + 1 + 1 + 1 + 1) = 8 * col by omega,
    List.drop_append_of_le_length (by rw [columns_length _ hf]; omega),
    List.take_append_of_le_length (by simp [columns_length _ hf]; omega)]
  exact columns_get _ hf 32 col h

theorem rowoutWrites_drop (s : State) (b : BitVec 2) (r : BitVec 3) :
    (rowoutWrites s b r).drop 261 = [(.lat, false), (.oe, false)] := by
  have hf := columnWrites_length s b r
  unfold rowoutWrites
  rw [List.drop_append, List.drop_of_length_le (by simp [columns_length _ hf])]
  simp [columns_length _ hf]

/-- The part of ROWOUT's writes before its last column. -/
theorem rowoutWrites_split (s : State) (b : BitVec 2) (r : BitVec 3) :
    rowoutWrites s b r =
      [(.a, r.getLsbD 0), (.b, r.getLsbD 1), (.c, r.getLsbD 2), (.oe, true), (.lat, true)]
        ++ (List.range 31).flatMap (columnWrites s b r) ++ columnWrites s b r 31 ++ [(.lat, false), (.oe, false)] := by
  unfold rowoutWrites
  rw [show (32 : Nat) = 31 + 1 from rfl, List.range_succ, List.flatMap_append]
  simp

/-- Column writes leave the row address, LAT and OE. -/
theorem columns_keep (s : State) (b : BitVec 2) (r : BitVec 3) (cols : List Nat) (q : Pins) :
    let q' := (cols.flatMap (columnWrites s b r)).foldl (fun q w => q.set w.1 w.2) q
    q'.a = q.a ∧ q'.b = q.b ∧ q'.c = q.c ∧ q'.lat = q.lat ∧ q'.oe = q.oe := by
  induction cols generalizing q with
  | nil => simp
  | cons col cols ih =>
    simp only [List.flatMap_cons, List.foldl_append]
    have h := ih ((columnWrites s b r col).foldl (fun q w => q.set w.1 w.2) q)
    simpa [columnWrites, Pins.set] using h

/-- The invariant depends on the block's own registers alone. -/
theorem Inv.congr (s t : State) (hi : Inv s) (hmem : t.mem = s.mem) (hien : t.tmrIen = s.tmrIen) (hen : t.tmrEn = s.tmrEn)
    (hrc : t.tmrRc = s.tmrRc) (hpre : t.tmrPre = s.tmrPre) (htick : t.tickPending = s.tickPending)
    (hfault : t.cmdFault = s.cmdFault) (hop : t.faultOp = s.faultOp) (hpins : t.pins = s.pins) (hb : t.bitIdx = s.bitIdx)
    (hr : t.rowIdx = s.rowIdx) (hf : t.frontSel = s.frontSel) (hov : t.tickOverrun = s.tickOverrun)
    (hcnt : t.tmrCnt = s.tmrCnt) : Inv t := by
  obtain ⟨i1, i2, i3, i4, i5, i6, i7, i8⟩ := hi
  constructor
  · rwa [hmem]
  · rw [hien, hen, i2]
  · rwa [hen, hrc]
  · rwa [hpre]
  · rwa [htick, hen]
  · rwa [hfault, hop]
  · rwa [hpins]
  · rwa [hen, hb, hr, hf, hpins, hov, hcnt, hpre, hrc]

/-- What the trace tells depends on the trace, the cursor, the role selector and the pins alone. -/
theorem TraceTells.congr (s t : State) (h : TraceTells s) (hb : t.bitIdx = s.bitIdx) (hr : t.rowIdx = s.rowIdx)
    (hf : t.frontSel = s.frontSel) (hp : t.pins = s.pins) (ht : t.trace = s.trace) : TraceTells t := by
  obtain ⟨h1, h2, h3, h4, h5⟩ := h
  constructor
  · rwa [hb, ht]
  · rwa [hr, ht]
  · rwa [hf, ht]
  · rwa [hp, ht]
  · rwa [ht]

/-- A scheduled mover takes the step. -/
theorem step_of_schedule (s : State) (m : Move) (ms : List Move) (h : s.schedule = m :: ms) :
    step s = takeMove m { s with schedule := ms } := by
  simp [step, nextMove, spendMove, h]

/-- Nothing but the schedule and the count of choices shows that a move is spent. -/
theorem spendMove_eq (s : State) :
    spendMove s = { s with schedule := (spendMove s).schedule, choices := (spendMove s).choices } := by
  unfold spendMove
  split <;> rfl

end Sys2Proof.Machine
end

