-- ==== Sys2Proof/Tests/Slice0.lean ====
section
/-! SUPPORT. Tests whose expected values are the vectors of 95_test_vectors.md (L2, L3), or computed by hand from the rule a
comment names; and for every obligation that has hypotheses a witness, an input that meets them together. -/

namespace Sys2Proof.Tests

open Sys2Proof Sys2Proof.Machine

/-! ### Helpers -/

/-- The step answers a next state of which p holds. -/
def nextIs (s : State) (p : State → Bool) : Bool :=
  match step s with
  | .next t => p t
  | .fault _ => false
  | .refused _ => false

/-- The command answers a next state of which p holds. -/
def execIs (i : Instr) (s : State) (p : State → Bool) : Bool :=
  match exec i s with
  | .next t => p t
  | .fault _ => false
  | .refused _ => false

theorem exists_of_nextIs (s : State) (p : State → Bool) (h : nextIs s p = true) : ∃ t, step s = .next t ∧ p t = true := by
  unfold nextIs at h
  split at h
  · rename_i t ht
    exact ⟨t, ht, h⟩
  · cases h
  · cases h

theorem exists_of_execIs (i : Instr) (s : State) (p : State → Bool) (h : execIs i s p = true) :
    ∃ t, exec i s = .next t ∧ p t = true := by
  unfold execIs at h
  split at h
  · rename_i t ht
    exact ⟨t, ht, h⟩
  · cases h
  · cases h

/-- The word w is the next command executed, from s. -/
def cmd (s : State) (w : Nat) (p : State → Bool) : Bool := nextIs (s.withFetchWord 32 w) p

/-- The engine's or another mover's step, from s. -/
def move (s : State) (m : Move) : State := { s with schedule := [m] }

/-- The sample running block of L2-U8: cursor (3,7), store B front, a swap pending, the timer running. -/
def atWrap : State :=
  { State.reset with frontSel := 1#1, pending := true, bitIdx := 3#2, rowIdx := 7#3, tmrEn := true, tmrIen := true }

/-- A running block with a swap pending and a tick due, at cursor (0,0). -/
def due : State := { State.reset with pending := true, tmrEn := true, tmrIen := true, tickPending := true }

/-! ### Well-formed commands (30_encoding.md R83) -/

theorem test_wellFormed_smoke :
    (Instr.setPixel 64 0 0#16).wellFormed = false ∧ (Instr.setPixel (-65) 0 0#16).wellFormed = false ∧
    (Instr.setPixel 0 32 0#16).wellFormed = false ∧ (Instr.setPixel 0 (-33) 0#16).wellFormed = false ∧
    (Instr.getPixel 64 0).wellFormed = false ∧ (Instr.getPixel (-65) 0).wellFormed = false ∧
    (Instr.getPixel 0 32).wellFormed = false ∧ (Instr.getPixel 0 (-33)).wellFormed = false := by decide

theorem test_wellFormed_boundaries :
    (Instr.setPixel 63 31 0xFFFF#16).wellFormed = true ∧ (Instr.setPixel (-64) (-32) 0#16).wellFormed = true ∧
    (Instr.getPixel 63 (-32)).wellFormed = true ∧ (Instr.getPixel (-64) 31).wellFormed = true := by decide

/-! ### Decoding: words of L2-E and of 30_encoding.md R86, R87 -/

theorem test_decode_nop : decode 0x1FFFFFFF#32 = .nop ∧ decode 0x00000000#32 = .nop := by decide

theorem test_decode_setPixel :
    decode 0x2000FFFF#32 = .setPixel 0 0 0xFFFF#16 ∧ decode 0x27CF1234#32 = .setPixel 31 15 0x1234#16 ∧
    decode 0x3FC0FFFF#32 = .setPixel (-1) 0 0xFFFF#16 ∧ decode 0x2800FFFF#32 = .setPixel 32 0 0xFFFF#16 ∧
    decode 0x2010FFFF#32 = .setPixel 0 16 0xFFFF#16 ∧ decode 0x203FFFFF#32 = .setPixel 0 (-1) 0xFFFF#16 ∧
    decode 0x2FDFFFFF#32 = .setPixel 63 31 0xFFFF#16 ∧ decode 0x30200000#32 = .setPixel (-64) (-32) 0#16 ∧
    decode 0x2149F800#32 = .setPixel 5 9 0xF800#16 ∧ decode 0x38000001#32 = .setPixel (-32) 0 1#16 := by decide

theorem test_decode_getPixel :
    decode 0x47CF0000#32 = .getPixel 31 15 ∧ decode 0x48000000#32 = .getPixel 32 0 ∧
    decode 0x5FFF0000#32 = .getPixel (-1) (-1) ∧ decode 0x47D00000#32 = .getPixel 31 16 ∧
    decode 0x4149FFFF#32 = .getPixel 5 9 := by decide

theorem test_decode_refresh : decode 0x60000000#32 = .refresh ∧ decode 0x6ABCDEF0#32 = .refresh := by decide

theorem test_decode_start : decode 0x80000000#32 = .start := by decide

theorem test_decode_status : decode 0xA0000000#32 = .status := by decide

theorem test_decode_reserved :
    decode 0xC0000000#32 = .rsvd6 ∧ decode 0xDEADBEEF#32 = .rsvd6 ∧ decode 0xE0000000#32 = .rsvd7 ∧
    decode 0xFFFFFFFF#32 = .rsvd7 := by decide

theorem test_encode_words :
    encode (.setPixel 31 15 0x1234#16) = 0x27CF1234#32 ∧ encode (.setPixel (-64) (-32) 0#16) = 0x30200000#32 ∧
    encode (.getPixel (-1) (-1)) = 0x5FFF0000#32 ∧ encode .status = 0xA0000000#32 := by decide

/-- 20_memory.md R55: little-endian bytes; a stream shorter than a word holds no command. -/
theorem test_decode_bytes :
    decodeBytes [0x34#8, 0x12#8, 0xCF#8, 0x27#8, 0x55#8] = .ok (.setPixel 31 15 0x1234#16, [0x55#8]) ∧
    decodeBytes [0x34#8, 0x12#8, 0xCF#8] = .error .truncated := by decide

theorem test_decode_tableWord :
    decodeTableWord 32 0x47CF0000 = some (.getPixel 31 15) ∧ decodeTableWord 64 0 = none := by decide

/-- L2-E33, L2-E34, and the spelling of R82 read case-insensitively with a comment. -/
theorem test_assemble_refusals :
    assembleLine 7 ['S', 'E', 'T', 'P', 'I', 'X', 'E', 'L', ' ', '6', '4', ',', ' ', '0', ',', ' ', '0'] = .error (.outOfRange 7) ∧
    assembleLine 8 ['S', 'E', 'T', 'P', 'I', 'X', 'E', 'L', ' ', '0', ',', '0', ',', '0', 'x', '1', '0', '0', '0', '0']
      = .error (.outOfRange 8) := by decide

theorem test_assemble_line :
    assembleLine 1 ['g', 'e', 't', 'p', 'i', 'x', 'e', 'l', ' ', '-', '1', ',', ' ', '-', '1', ' ', ';', 'x'] = .ok [0x5FFF0000#32] := by
  decide

/-- L2-E28: REFRESH with ignored bits. -/
theorem test_disassemble_ignored :
    disassemble 0x6ABCDEF0#32 =
      ['R', 'E', 'F', 'R', 'E', 'S', 'H', ' ', ';', ' ', 'i', 'g', 'n', 'o', 'r', 'e', 'd', ' ', 'b', 'i', 't', 's', ' ', 'n', 'o', 'n',
        'z', 'e', 'r', 'o'] := by decide

/-! ### One command, one step -/

/-- L2-N1, L2-N2: no change and no response, also with a swap pending; the port is free afterwards. -/
theorem test_nop :
    cmd atWrap 0 (fun t => t.pending && t.responses = [] && t.mem = [] && t.portHead = none && !t.cmdFault) = true := by
  decide +kernel

/-- L2-S1: store B cell 511. -/
theorem test_setPixel_writes :
    cmd State.reset 0x27CF1234 (fun t => pixRead 1#1 511 t = 0x1234#16 && t.mem.length = 1 && t.portHead = none) = true := by
  decide +kernel

/-- L2-S2 to L2-S9: no change out of range; L2-S12: held with a swap pending. -/
theorem test_setPixel_silent :
    cmd State.reset 0x2800FFFF (fun t => t.mem = []) = true ∧ cmd State.reset 0x3FC0FFFF (fun t => t.mem = []) = true ∧
    cmd State.reset 0x2010FFFF (fun t => t.mem = []) = true ∧ cmd State.reset 0x203FFFFF (fun t => t.mem = []) = true ∧
    cmd atWrap 0x2800FFFF (fun t => t.portHead = some 0x2800FFFF#32) = true := by decide +kernel

/-- L2-G1, L2-G2: the stored color, COLOR of the command ignored. -/
theorem test_getPixel_in_range :
    cmd { State.reset with mem := [(1023, 0x1234#16)] } 0x47CFFFFF (fun t => t.responses = [0x00001234#32]) = true := by
  decide +kernel

/-- L2-G3, L2-G4, L2-G6: zero out of range; the back store only. -/
theorem test_getPixel_back_only :
    cmd atWrap 0x48000000 (fun t => t.responses = [0#32]) = true ∧ cmd atWrap 0x5FFF0000 (fun t => t.responses = [0#32]) = true ∧
    cmd { State.reset with mem := [(0, 0x1234#16), (512, 0xFFFF#16)] } 0x40000000
      (fun t => t.responses = [0x0000FFFF#32]) = true := by decide +kernel

/-- L2-R1, L2-R3, L2-R4. -/
theorem test_refresh_sets :
    cmd State.reset 0x6ABCDEF0 (fun t => t.pending && !t.tmrEn && t.portHead = none) = true := by decide +kernel

/-- L2-R2: held while a swap is pending. -/
theorem test_refresh_held :
    cmd atWrap 0x60000000 (fun t => t.pending && t.portHead = some 0x60000000#32) = true := by decide +kernel

/-- L2-T1: after reset. -/
theorem test_start_from_reset :
    ∃ t, step (State.reset.withFetchWord 32 0x80000000) = .next t ∧ t.tmrRc = periodTicks 0#2 ∧ t.tmrCnt = 0#32 ∧ t.tmrPre = 0 ∧
      t.tmrEn = true ∧ t.tmrIen = true ∧ t.trace = [.timerStart (periodTicks 0#2)] :=
  ⟨_, rfl, rfl, rfl, rfl, rfl, rfl, rfl⟩

/-- L2-T2: no change while the timer runs. -/
theorem test_start_running :
    cmd { atWrap with tmrCnt := 57#32 } 0x80000000 (fun t => t.tmrCnt = 57#32 && t.trace = [] && t.portHead = none) = true := by
  decide +kernel

/-- L2-U1, L2-U4, L2-U8. -/
theorem test_status_words :
    cmd State.reset 0xA0000000 (fun t => t.responses = [0x00000000#32]) = true ∧
    cmd { State.reset with frontSel := 1#1, tmrEn := true, tmrIen := true } 0xA0000000
      (fun t => t.responses = [0x00002006#32]) = true ∧
    cmd atWrap 0xA0000000 (fun t => t.responses = [0x00003F07#32]) = true := by decide +kernel

/-- L2-U3, L2-U5, L2-U7: fault, tick and overrun bits. -/
theorem test_status_flags :
    cmd { State.reset with cmdFault := true, faultOp := 6#3 } 0xA0000000 (fun t => t.responses = [0x00000068#32]) = true ∧
    cmd { State.reset with tmrEn := true, tmrIen := true, tickPending := true, tickOverrun := true } 0xA0000000
      (fun t => t.responses = [0x00004086#32]) = true ∧
    cmd { State.reset with tmrEn := true, tmrIen := true, tickOverrun := true, bitIdx := 1#2, cmdFault := true, faultOp := 6#3 }
      0xA0000000 (fun t => t.responses = [0x000001EE#32]) = true := by decide +kernel

/-- L2-N3, L2-N6: the fault is set, not held, no response. -/
theorem test_rsvd6 :
    cmd atWrap 0xDEADBEEF (fun t => t.cmdFault && t.faultOp = 6#3 && t.responses = [] && t.portHead = none) = true := by
  decide +kernel

/-- L2-N5, L2-N4: opcode 7 is recorded, but never over an earlier one. -/
theorem test_rsvd7 :
    cmd State.reset 0xFFFFFFFF (fun t => t.cmdFault && t.faultOp = 7#3) = true ∧
    cmd { State.reset with cmdFault := true, faultOp := 6#3 } 0xE0000000 (fun t => t.cmdFault && t.faultOp = 6#3) = true := by
  decide +kernel

/-! ### The scan engine -/

/-- L2-C1: levels of R, G, B at planes 0 to 3. -/
theorem test_chanBit :
    ([0#2, 1#2, 2#2, 3#2].map fun b => (chanBit 0x1234#16 chOffR b, chanBit 0x1234#16 chOffG b, chanBit 0x1234#16 chOffB b)) =
      [(true, false, false), (false, false, true), (false, true, false), (false, false, true)] ∧
    ([0#2, 1#2, 2#2, 3#2].map fun b => (chanBit 0xA5A5#16 chOffR b, chanBit 0xA5A5#16 chOffG b, chanBit 0xA5A5#16 chOffB b)) =
      [(false, true, false), (true, true, true), (false, false, false), (true, true, false)] ∧
    ([0#2, 1#2, 2#2, 3#2].map fun b => (chanBit 0x0861#16 chOffR b, chanBit 0x0861#16 chOffG b, chanBit 0x0861#16 chOffB b)) =
      [(false, false, false), (false, false, false), (false, false, false), (false, false, false)] := by decide

/-- L2-O4: the first events of ROWOUT(0,0) with only cell (0,0) lit, and the last two. -/
theorem test_rowout_events :
    (rowoutWrites { State.reset with mem := [(0, 0xFFFF#16)] } 0#2 0#3).take 14 =
      [(.a, false), (.b, false), (.c, false), (.oe, true), (.lat, true), (.r1, true), (.g1, true), (.b1, true), (.r2, false),
        (.g2, false), (.b2, false), (.clk, false), (.clk, true), (.r1, false)] ∧
    (rowoutWrites State.reset 0#2 0#3).drop 261 = [(.lat, false), (.oe, false)] := by decide +kernel

/-- L1-E2: row-pair 3, column 7 drives cells (7,3) and (7,11): indices 103 and 359. -/
theorem test_rowout_pair :
    ((rowoutWrites { State.reset with mem := [(103, 0xF800#16), (359, 0x07E0#16)] } 2#2 3#3).drop (5 + 8 * 7)).take 6 =
      [(.r1, true), (.g1, false), (.b1, false), (.r2, false), (.g2, true), (.b2, false)] := by decide +kernel

/-- L2-O3: end levels after ROWOUT(3,7) on an all-zero front. -/
theorem test_rowout_levels :
    (rowout 3#2 7#3 State.reset).pins =
      { r1 := false, g1 := false, b1 := false, r2 := false, g2 := false, b2 := false, a := true, b := true, c := true,
        clk := true, lat := false, oe := false } := by decide +kernel

/-- L2-A3, L2-A6, L2-A7. -/
theorem test_advance :
    (let t := advance { State.reset with bitIdx := 3#2, rowIdx := 2#3, pending := true };
      t.bitIdx = 0#2 ∧ t.rowIdx = 3#3 ∧ t.frontSel = 0#1 ∧ t.pending = true) ∧
    (let t := advance { State.reset with bitIdx := 3#2, rowIdx := 7#3 };
      t.bitIdx = 0#2 ∧ t.rowIdx = 0#3 ∧ t.frontSel = 0#1) ∧
    (let t := advance { State.reset with bitIdx := 3#2, rowIdx := 7#3, pending := true };
      t.bitIdx = 0#2 ∧ t.rowIdx = 0#3 ∧ t.frontSel = 1#1 ∧ t.pending = false) := by decide +kernel

/-- L2-W1. -/
theorem test_swap :
    (let t := swap { State.reset with mem := [(3, 0x1111#16), (512, 0xFFFF#16)], pending := true };
      t.frontSel = 1#1 ∧ t.mem = [(512, 0xFFFF#16)] ∧ t.pending = false ∧ t.trace = [.swap 1#1]) := by decide +kernel

/-- L2-O1: a TICK appends 264 events, and 265 when a SWAP runs. -/
theorem test_tick_event_count :
    nextIs (move { due with pending := false } .tick) (fun t => t.trace.length = 264 && !t.tickPending && t.bitIdx = 1#2) = true ∧
    nextIs (move { atWrap with tickPending := true } .tick)
      (fun t => t.trace.length = 265 && t.frontSel = 0#1 && !t.pending && t.bitIdx = 0#2 && t.rowIdx = 0#3) = true := by
  decide +kernel

/-! ### The timer -/

/-- L2-Q1, L2-Q2, L2-Q4, L2-Q8, L2-Q9. -/
theorem test_quantize_samples :
    ([100, 200, 400, 800].map (quantizeWith 1000000 1)) = [100, 200, 400, 800] ∧
    ([2, 4, 8, 16].map (quantizeWith 10500000 8)) = [3, 5, 11, 21] ∧
    ([1, 2, 4, 8].map (quantizeWith 42000000 128)) = [1, 1, 1, 3] ∧
    ([1, 2, 4, 8].map (quantizeWith 1000000 1000)) = [1, 1, 1, 1] ∧
    ([10, 20, 40, 80].map (quantizeWith 84000000 128)) = [7, 13, 26, 53] := by decide +kernel

/-- Single values of Quantize: the top clamp and the tie. -/
theorem test_quantize_edges :
    quantizeWith 1000000 1 4294967295 = 4294967295 ∧ quantizeWith 1000000 1 4294967296 = 4294967295 ∧
    quantizeWith 500000 1 1 = 1 ∧ quantizeWith 500000 1 3 = 2 := by decide +kernel

/-- L2-K3, L2-K4: a late load expires with the next timer tick; a same-edge load leaves the match to the old value. -/
theorem test_timer_loads :
    (timerTick 3#32 { due with tmrCnt := 4#32, tickPending := false }).tickPending = true ∧
    (timerTick 21#32 { due with tmrCnt := 20#32, tickPending := false }).tickPending = true ∧
    (timerTick 21#32 { due with tmrCnt := 19#32, tickPending := false }).tickPending = false ∧
    (timerTick 21#32 { due with tmrCnt := 19#32, tickPending := false }).tmrCnt = 20#32 := by decide

/-- L2-X1, L2-X2, L2-X3. -/
theorem test_expire :
    nextIs (move { due with tickPending := false } .expire) (fun t => t.tickPending && !t.tickOverrun) = true ∧
    nextIs (move due .expire) (fun t => t.tickPending && t.tickOverrun) = true ∧
    nextIs (move State.reset .expire) (fun t => !t.tickPending) = true := by decide +kernel

/-- 10_state.md R42: the response stands on the port for one cycle. -/
theorem test_response_cycle :
    cmd State.reset 0xA0000000 (fun t => t.rspPort = some 0#32) = true ∧
    nextIs (move { State.reset with rspPort := some 5#32 } .clk) (fun t => t.rspPort = none) = true := by decide +kernel

/-! ### The port and reset -/

/-- 10_state.md R40: the host presents its words in order, one at a time. -/
theorem test_present :
    nextIs { State.reset with hostQueue := [1#32, 2#32], schedule := [.present] }
      (fun t => t.portHead = some 1#32 && t.hostQueue = [2#32]) = true ∧
    nextIs { State.reset with portHead := some 9#32, hostQueue := [1#32], schedule := [.present] }
      (fun t => t.portHead = some 9#32 && t.hostQueue = [1#32]) = true := by decide +kernel

/-- 60_exceptions.md R179: a word may be sent also while the port is taken. -/
theorem test_send :
    nextIs { State.reset with portHead := some 9#32, hostQueue := [1#32], schedule := [.send 0xA0000000#32] }
      (fun t => t.portHead = some 9#32 && t.hostQueue = [1#32, 0xA0000000#32] && t.schedule = []) = true := by decide +kernel

/-- L2-Z1, L2-Z2. -/
theorem test_reset :
    nextIs { atWrap with mem := [(3, 1#16)], portHead := some 0x2000FFFF#32, tmrCnt := 9#32, schedule := [.reset] }
      (fun t => t.mem = [] && !t.pending && t.portHead = none && t.tmrCnt = 0#32 && t.trace = [.reset]) = true := by
  decide +kernel

/-- L2-T3 and the whole-machine path: withFetchWord makes the very next step run the word. -/
theorem test_withFetchWord :
    cmd { State.reset with pending := true } 0x80000000 (fun t => t.pending && t.tmrEn && t.schedule = []) = true := by
  decide +kernel

/-! ### Witnesses: for each obligation with hypotheses, inputs that meet them together -/

theorem witness_DecodeGivesBackEveryEncodedCommand :
    (Instr.setPixel 63 31 0xFFFF#16).wellFormed = true ∧ (Instr.getPixel (-64) (-32)).wellFormed = true ∧
    Instr.rsvd7.wellFormed = true := by decide

/-- One word per clause, at the ends of each opcode's range. -/
theorem witness_DecodeReadsTheFields :
    (0x1FFFFFFF#32 : Word).toNat / 2 ^ 29 = 0 ∧ (0x20000000#32 : Word).toNat / 2 ^ 29 = 1 ∧
    (0x3FFFFFFF#32 : Word).toNat / 2 ^ 29 = 1 ∧ (0x40000000#32 : Word).toNat / 2 ^ 29 = 2 ∧
    (0x7FFFFFFF#32 : Word).toNat / 2 ^ 29 = 3 ∧ (0x80000000#32 : Word).toNat / 2 ^ 29 = 4 ∧
    (0xBFFFFFFF#32 : Word).toNat / 2 ^ 29 = 5 ∧ (0xC0000000#32 : Word).toNat / 2 ^ 29 = 6 ∧
    (0xFFFFFFFF#32 : Word).toNat / 2 ^ 29 = 7 := by decide

theorem witness_IgnoredFieldsDecodeAlike :
    (0x4149FFFF#32 : Word) &&& usedMask (decode 0x4149FFFF#32) = 0x41490000#32 &&& usedMask (decode 0x4149FFFF#32) := by decide

theorem witness_FillPaintsTheBackStore : Memory.wf State.reset.mem ∧ State.reset.pending = false ∧ 511 < 512 := by decide

theorem witness_AssemblerRefusesWhatDoesNotFit :
    (-64 ≤ (63 : Int) ∧ (63 : Int) ≤ 63 ∧ -32 ≤ (-32 : Int) ∧ (-32 : Int) ≤ 31 ∧ 0 ≤ (0xFFFF : Int) ∧ (0xFFFF : Int) ≤ 0xFFFF) ∧
    ¬(-64 ≤ (64 : Int) ∧ (64 : Int) ≤ 63 ∧ -32 ≤ (0 : Int) ∧ (0 : Int) ≤ 31 ∧ 0 ≤ (0 : Int) ∧ (0 : Int) ≤ 0xFFFF) ∧
    ¬(-64 ≤ (0 : Int) ∧ (0 : Int) ≤ 63 ∧ -32 ≤ (0 : Int) ∧ (0 : Int) ≤ 31 ∧ 0 ≤ (0x10000 : Int) ∧ (0x10000 : Int) ≤ 0xFFFF) := by
  decide

theorem witness_NopLeavesTheStateUnchanged : (0x1FFFFFFF#32 : Word) &&& 0xE0000000#32 = 0x00000000#32 := by decide

/-- A word; a pending swap; each edge of the range from outside; both corners of the range. -/
theorem witness_SetPixelWritesOneBackCell :
    (0x3FFFFFFF#32 : Word) &&& 0xE0000000#32 = 0x20000000#32 ∧ atWrap.pending = true ∧
    (State.reset.pending = false ∧ ¬(0 ≤ (32 : Int) ∧ (32 : Int) < 32 ∧ 0 ≤ (0 : Int) ∧ (0 : Int) < 16)) ∧
    ¬(0 ≤ (0 : Int) ∧ (0 : Int) < 32 ∧ 0 ≤ (-1 : Int) ∧ (-1 : Int) < 16) ∧
    (Memory.wf State.reset.mem ∧ State.reset.pending = false ∧
      0 ≤ (31 : Int) ∧ (31 : Int) < 32 ∧ 0 ≤ (15 : Int) ∧ (15 : Int) < 16) ∧
    (0 ≤ (0 : Int) ∧ (0 : Int) < 32 ∧ 0 ≤ (0 : Int) ∧ (0 : Int) < 16) := by decide

theorem witness_GetPixelAnswersTheBackCell :
    (0x5FFFFFFF#32 : Word) &&& 0xE0000000#32 = 0x40000000#32 ∧
    (0 ≤ (31 : Int) ∧ (31 : Int) < 32 ∧ 0 ≤ (15 : Int) ∧ (15 : Int) < 16) ∧
    ¬(0 ≤ (-1 : Int) ∧ (-1 : Int) < 32 ∧ 0 ≤ (0 : Int) ∧ (0 : Int) < 16) ∧
    Memory.wf State.reset.mem ∧ ∃ t, exec (.getPixel 31 15) (swap State.reset) = .next t :=
  ⟨by decide, by decide, by decide, by decide, _, rfl⟩

theorem witness_SetThenGetAnswersTheColor :
    Memory.wf State.reset.mem ∧ State.reset.pending = false ∧ (0 ≤ (31 : Int) ∧ (31 : Int) < 32 ∧ 0 ≤ (15 : Int) ∧ (15 : Int) < 16) ∧
    ∀ c', Instr.setPixel 31 15 c' ∉ [Instr.setPixel 31 14 0#16, .getPixel 31 15, .refresh, .start, .status] :=
  ⟨by decide, rfl, by decide, fun c' => by simp⟩

theorem witness_RefreshSetsPending :
    (0x6ABCDEF0#32 : Word) &&& 0xE0000000#32 = 0x60000000#32 ∧ State.reset.pending = false ∧ atWrap.pending = true ∧
    (let s := move { State.reset with pending := true } .tick;
      s.pending = true ∧ s.tmrEn = false ∧ s.tickPending = false ∧ nextMove s ≠ .reset ∧ ∃ t, step s = .next t) :=
  ⟨by decide, rfl, rfl, rfl, rfl, rfl, by decide, _, rfl⟩

theorem witness_StartStartsAStoppedTimer :
    (0x9FFFFFFF#32 : Word) &&& 0xE0000000#32 = 0x80000000#32 ∧ State.reset.tmrEn = false ∧ atWrap.tmrEn = true := by decide

theorem witness_StatusAnswersTheFlagWord : (0xBFFFFFFF#32 : Word) &&& 0xE0000000#32 = 0xA0000000#32 := by decide

theorem witness_ReservedOpcodeRaisesCmdFault :
    (0xDEADBEEF#32 : Word) &&& 0xE0000000#32 = 0xC0000000#32 ∧ (0xFFFFFFFF#32 : Word) &&& 0xE0000000#32 = 0xE0000000#32 ∧
    (let s := { State.reset with portHead := some 0xDEADBEEF#32 };
      s.portHead = some 0xDEADBEEF#32 ∧ opField 0xDEADBEEF#32 = 6#3) ∧
    (let s := { State.reset with portHead := some 0xFFFFFFFF#32 };
      s.portHead = some 0xFFFFFFFF#32 ∧ opField 0xFFFFFFFF#32 = 7#3) := by decide

/-- An empty port; a held REFRESH; a NOP that is executed. -/
theorem witness_HostStepExecutesTheDecodedWord :
    (let s := move State.reset .host; s.schedule = .host :: [] ∧ s.portHead = none) ∧
    (let s := { move atWrap .host with portHead := some 0x60000000#32 };
      s.schedule = .host :: [] ∧ s.portHead = some 0x60000000#32 ∧ held (decode 0x60000000#32) s = true) ∧
    (let s := { move atWrap .host with portHead := some 0#32 };
      s.schedule = .host :: [] ∧ s.portHead = some 0#32 ∧ held (decode 0#32) s = false ∧
        ∃ t, exec (decode 0#32) { s with schedule := [], rspPort := none } = .next t) :=
  ⟨⟨rfl, rfl⟩, ⟨rfl, rfl, rfl⟩, rfl, rfl, rfl, _, rfl⟩

/-- One command that responds, one that does not. -/
theorem witness_OnlyReadCommandsRespond :
    (∃ t, exec .status atWrap = .next t) ∧ (∃ t, exec (.getPixel 0 0) atWrap = .next t) ∧
    ((∃ t, exec .refresh State.reset = .next t) ∧ ¬((∃ x y, Instr.refresh = .getPixel x y) ∨ Instr.refresh = .status)) :=
  ⟨⟨_, rfl⟩, ⟨_, rfl⟩, ⟨_, rfl⟩, by simp⟩

theorem witness_CommandsLeaveTheEngineAlone :
    (∃ t, exec (.setPixel 31 15 1#16) State.reset = .next t) ∧ 511 < 512 ∧ Instr.setPixel 31 15 1#16 ≠ .start :=
  ⟨⟨_, rfl⟩, by decide, by decide⟩

/-- The back store is B; a front cell differs. -/
theorem witness_CommandsNeverReadTheFrontStore :
    Memory.wf State.reset.mem ∧ Memory.wf [(511, 5#16)] ∧
    (∀ j, j < 512 → Memory.read [(511, 5#16)] (pixAddr (backStore State.reset) j) = pixRead (backStore State.reset) j State.reset) ∧
    ∃ t, exec (.getPixel 31 15) State.reset = .next t :=
  ⟨by decide, by decide, by decide +kernel, _, rfl⟩

theorem witness_TickOutputsOneRowPair :
    (let s := move State.reset .tick; s.schedule = .tick :: [] ∧ s.tickPending = false) ∧
    (let s := move due .tick; s.schedule = .tick :: [] ∧ s.tickPending = true ∧ ¬(framePos s = 31 ∧ s.pending = true)) ∧
    (let s := move { atWrap with tickPending := true } .tick;
      s.schedule = .tick :: [] ∧ s.tickPending = true ∧ framePos s = 31 ∧ s.pending = true) := by decide

/-- Column 31 is the last that the per-column clause covers. -/
theorem witness_RowoutEventsInOrder : 0 < 32 ∧ 31 < 32 := by decide

/-- 0x0821 has only headroom bits (L2-C1). -/
theorem witness_HeadroomBitsNeverReachAPin :
    ∀ j, j < 512 →
      Memory.read [(0, 0x0821#16)] (pixAddr State.reset.frontSel j) &&& 0xF79E#16 =
        pixRead State.reset.frontSel j State.reset &&& 0xF79E#16 := by decide +kernel

theorem witness_TickNeverReadsTheBackStore :
    ∀ j, j < 512 → Memory.read [(512, 7#16)] (pixAddr due.frontSel j) = pixRead due.frontSel j due := by decide +kernel

theorem witness_AdvanceStepsTheCursor :
    (framePos atWrap = 31 ∧ atWrap.pending = true) ∧ ¬(framePos State.reset = 31 ∧ State.reset.pending = true) := by decide

theorem witness_FrameVisitsEveryCursorInOrder : due.bitIdx = 0#2 ∧ due.rowIdx = 0#3 := by decide

theorem witness_SwapBlanksTheOldFront : Memory.wf [(3, 0x1111#16), (512, 0xFFFF#16)] ∧ 0 < 512 ∧ 511 < 512 := by decide

theorem witness_SwapOnlyAtTheFrameWrap :
    (∃ t, step (move { atWrap with tickPending := true } .tick) = .next t ∧ decide (t.frontSel ≠ 1#1 ∧ t.pending = false) = true) ∧
    nextMove (move { atWrap with tickPending := true } .tick) ≠ .reset :=
  ⟨exists_of_nextIs _ (fun t => decide (t.frontSel ≠ 1#1 ∧ t.pending = false)) (by decide +kernel), by decide⟩

/-- One step for each writer: SETPIXEL, SWAP, RESET. -/
theorem witness_CellsChangeOnlyByTheirWriters :
    (∃ t, step (State.reset.withFetchWord 32 0x27CF1234) = .next t ∧ decide (t.mem.read 1023 ≠ 0#16) = true) ∧
    (∃ t, step (move { atWrap with tickPending := true, mem := [(512, 1#16)] } .tick) = .next t ∧
      decide (t.mem.read 512 ≠ 1#16) = true) ∧
    (∃ t, step (move { State.reset with mem := [(0, 1#16)] } .reset) = .next t ∧ decide (t.mem.read 0 ≠ 1#16) = true) ∧
    Memory.wf [(512, 1#16)] ∧ Memory.wf [(0, 1#16)] :=
  ⟨exists_of_nextIs _ (fun t => decide (t.mem.read 1023 ≠ 0#16)) (by decide +kernel),
    exists_of_nextIs _ (fun t => decide (t.mem.read 512 ≠ 1#16)) (by decide +kernel),
    exists_of_nextIs _ (fun t => decide (t.mem.read 0 ≠ 1#16)) (by decide +kernel), by decide, by decide⟩

theorem witness_CursorMovesOnlyByTick :
    ((∃ t, step (move due .tick) = .next t) ∧ nextMove (move due .tick) ≠ .reset ∧ tickTaken .tick (move due .tick) = true) ∧
    ((∃ t, step (move due .expire) = .next t) ∧ nextMove (move due .expire) ≠ .reset ∧
      tickTaken .expire (move due .expire) = false) :=
  ⟨⟨⟨_, rfl⟩, by decide, by decide⟩, ⟨_, rfl⟩, by decide, by decide⟩

theorem witness_ExpireLatchesOneTick :
    State.reset.tmrEn = false ∧ ({ State.reset with tmrEn := true }.tmrEn = true ∧ { State.reset with tmrEn := true }.tmrIen = false) ∧
    (due.tmrEn = true ∧ due.tmrIen = true) := by decide

/-- The prescaler at its last count, TIMER_DIV - 1, and at 0. -/
theorem witness_PrescalerDividesTheClock :
    State.reset.tmrEn = false ∧
    (let s := { due with tmrPre := (Config.timerDiv : Nat) - 1 }; s.tmrEn = true ∧ s.tmrPre < (Config.timerDiv : Nat)) ∧
    (due.tmrEn = true ∧ due.tmrPre < (Config.timerDiv : Nat)) :=
  ⟨rfl, ⟨rfl, Nat.sub_lt Config.timerDiv.pos Nat.one_pos⟩, rfl, Config.timerDiv.pos⟩

/-- 20 + 1 against 21 and against 22; a whole interval of 3. -/
theorem witness_IntervalLastsItsCompareValue :
    (let s := { due with tmrCnt := 20#32, tmrRc := 21#32 }; s.tmrRc.toNat ≤ s.tmrCnt.toNat + 1) ∧
    (let s := { due with tmrCnt := 20#32, tmrRc := 22#32 }; s.tmrCnt.toNat + 1 < s.tmrRc.toNat) ∧
    (let s := { due with tmrRc := 3#32 };
      s.tmrEn = true ∧ s.tmrIen = true ∧ s.tmrCnt = 0#32 ∧ 1 ≤ s.tmrRc.toNat ∧ 2 < s.tmrRc.toNat) := by decide

theorem witness_ExpiryComesAfterPeriodTimesDivEdges :
    (let s := { due with tmrRc := 1#32, tickPending := false };
      s.tmrEn = true ∧ s.tmrIen = true ∧ s.tmrPre = 0 ∧ s.tmrCnt = 0#32 ∧ 1 ≤ s.tmrRc.toNat ∧ s.tickPending = false ∧
        0 < s.tmrRc.toNat * (Config.timerDiv : Nat)) :=
  ⟨rfl, rfl, rfl, rfl, by decide, rfl, Nat.mul_pos (by decide) Config.timerDiv.pos⟩

/-- L2-K3; L2-K4; and a count one short of the match. -/
theorem witness_LateAndSameEdgeLoads :
    (let s := { due with tmrCnt := 4#32 }; s.tmrEn = true ∧ (3#32 : Word).toNat ≤ s.tmrCnt.toNat + 1) ∧
    (let s := { due with tmrCnt := 20#32, tmrRc := 21#32, tmrPre := (Config.timerDiv : Nat) - 1 };
      s.tmrEn = true ∧ s.tickPending = true ∧ s.tmrPre + 1 = (Config.timerDiv : Nat) ∧ s.tmrRc.toNat ≤ s.tmrCnt.toNat + 1) ∧
    (let s := { due with tmrCnt := 19#32, tmrRc := 21#32, tmrPre := (Config.timerDiv : Nat) - 1 };
      s.tmrEn = true ∧ s.tickPending = true ∧ s.tmrPre + 1 = (Config.timerDiv : Nat) ∧ s.tmrCnt.toNat + 1 < s.tmrRc.toNat) :=
  ⟨⟨rfl, by decide⟩, ⟨rfl, rfl, Nat.sub_add_cancel Config.timerDiv.pos, by decide⟩, rfl, rfl,
    Nat.sub_add_cancel Config.timerDiv.pos, by decide⟩

/-- L2-Q2 (2.625 gives 3, the tie 10.5 gives 11); L2-Q8 below one half; Quantize(2^33). -/
theorem witness_QuantizeRoundsToNearest :
    (0 < 8 ∧ 1 ≤ 3 ∧ 3 ≤ 2 ^ 32 - 1 ∧ 3 * (2 * (8 * 1000000)) ≤ 2 * 2 * 10500000 + 8 * 1000000 ∧
      2 * 2 * 10500000 + 8 * 1000000 < (3 + 1) * (2 * (8 * 1000000))) ∧
    (11 * (2 * (8 * 1000000)) ≤ 2 * 8 * 10500000 + 8 * 1000000 ∧
      2 * 8 * 10500000 + 8 * 1000000 < (11 + 1) * (2 * (8 * 1000000))) ∧
    2 * 1 * 1000000 < 1000 * 1000000 ∧
    (2 ^ 32 - 1) * (2 * (1 * 1000000)) ≤ 2 * 2 ^ 33 * 1000000 + 1 * 1000000 := by decide +kernel

theorem witness_BoundaryTakesTheTickFirst :
    (let s := move due .boundary; s.schedule = .boundary :: [] ∧ s.tickPending = true) ∧
    (let s := move State.reset .boundary; s.schedule = .boundary :: [] ∧ s.tickPending = false) := by decide

/-- A recorded fault meets another; a first fault; none. -/
theorem witness_FaultRecordIsSticky :
    (∃ t, step ({ State.reset with cmdFault := true, faultOp := 6#3 }.withFetchWord 32 0xE0000000) = .next t) ∧
    (State.reset.cmdFault = false ∧
      ∃ t, step (State.reset.withFetchWord 32 0xFFFFFFFF) = .next t ∧ decide (t.cmdFault = true) = true) ∧
    (∃ t, step (State.reset.withFetchWord 32 0) = .next t ∧ decide (t.cmdFault = false) = true) ∧
    nextMove (State.reset.withFetchWord 32 0) ≠ .reset :=
  ⟨⟨_, rfl⟩, ⟨rfl, exists_of_nextIs _ (fun t => decide (t.cmdFault = true)) (by decide +kernel)⟩,
    exists_of_nextIs _ (fun t => decide (t.cmdFault = false)) (by decide +kernel), by decide⟩

theorem witness_TimerRunsUntilReset :
    ((∃ t, step (move { due with tickOverrun := true } .tick) = .next t) ∧ due.tmrEn = true ∧ due.tmrIen = true ∧
      { due with tickOverrun := true }.tickOverrun = true) ∧
    (State.reset.tmrEn = false ∧
      ∃ t, step (State.reset.withFetchWord 32 0x80000000) = .next t ∧ decide (t.tmrEn = true) = true) ∧
    nextMove (State.reset.withFetchWord 32 0x80000000) ≠ .reset :=
  ⟨⟨⟨_, rfl⟩, rfl, rfl, rfl⟩, ⟨rfl, exists_of_nextIs _ (fun t => decide (t.tmrEn = true)) (by decide +kernel)⟩, by decide⟩

theorem witness_ResetRestoresEveryRegister : nextMove (move { due with portHead := some 0x2000FFFF#32 } .reset) = .reset := by decide

theorem witness_ResetAppendsOneEventAndReadsZero : nextMove (move atWrap .reset) = .reset := by decide

/-- A word that is executed; a word that is presented. -/
theorem witness_PortHoldsItsWord :
    ((State.reset.withFetchWord 32 0).portHead = some 0#32 ∧
      ∃ t, step (State.reset.withFetchWord 32 0) = .next t ∧ decide (t.portHead ≠ some 0#32) = true) ∧
    (let s := move { State.reset with hostQueue := [7#32] } .present;
      s.portHead = none ∧ nextMove s ≠ .reset ∧ ∃ t, step s = .next t ∧ decide (t.portHead ≠ none) = true) :=
  ⟨⟨rfl, exists_of_nextIs _ (fun t => decide (t.portHead ≠ some 0#32)) (by decide +kernel)⟩, rfl, by decide,
    exists_of_nextIs _ (fun t => decide (t.portHead ≠ none)) (by decide +kernel)⟩

theorem witness_ReadyIsLowWhileHeld :
    (let s := { atWrap with portHead := some 0x2000FFFF#32 };
      s.portHead = some 0x2000FFFF#32 ∧ held (decode 0x2000FFFF#32) s = true) := by decide

theorem witness_ObservationsOnlyGrow : ∃ t, step (State.reset.withFetchWord 32 0xA0000000) = .next t := ⟨_, rfl⟩

/-- Reset, and a running block at the wrap with a tick due and a fault recorded. -/
theorem witness_EveryStepKeepsTheInvariant :
    (let s := move { atWrap with tickPending := true, tmrRc := 100#32, cmdFault := true, faultOp := 7#3, mem := [(0, 1#16)] } .tick;
      Inv s ∧ ∃ t, step s = .next t) := by
  refine ⟨?_, _, rfl⟩
  constructor <;> first | exact Config.timerDiv.pos | decide

/-- A block that has had its first TICK, at cursor (1,0). -/
theorem witness_EveryStepKeepsWhatTheTraceTells :
    (let s := move { due with bitIdx := 1#2, trace := [.timerStart (periodTicks 0#2), .timerLoad (periodTicks 0#2)] } .tick;
      TraceTells s ∧ ∃ t, step s = .next t) :=
  ⟨⟨rfl, rfl, rfl, rfl, rfl, trivial⟩, _, rfl⟩

/-- The end of program P3, a SETPIXEL held for ever: the clock goes on; the host sends a START behind it. -/
theorem witness_HangLastsUntilReset :
    (let s := move { State.reset with pending := true, portHead := some 0x2000A5A5#32 } .clk;
      Hang s ∧ nextMove s ≠ .reset ∧ ∃ t, step s = .next t) ∧
    (let s := move { State.reset with pending := true, portHead := some 0x2000A5A5#32 } (.send 0x80000000#32);
      Hang s ∧ nextMove s ≠ .reset ∧ ∃ t, step s = .next t) :=
  ⟨⟨⟨by decide, rfl, rfl⟩, by decide, _, rfl⟩, ⟨by decide, rfl, rfl⟩, by decide, _, rfl⟩

theorem witness_PendingSwapComesWithinOneFrame :
    (let s := { due with schedule := (List.replicate 32 [Move.expire, Move.tick]).flatten ++ [] };
      s.pending = true ∧ s.tmrEn = true ∧ s.tmrIen = true ∧
        s.schedule = (List.replicate 32 [Move.expire, Move.tick]).flatten ++ [] ∧ 63 < 2 * (32 - framePos s)) := by decide

/-- Expiry and TICK in turn. -/
def turns (n : Nat) : Move := if n % 2 = 0 then .expire else .tick

/-- The run of `turns` from a running block with a swap pending. -/
def turnRun : Nat → State
  | 0 => due
  | n + 1 => if n % 2 = 0 then expire (turnRun n) else tick (turnRun n)

theorem witness_FairRunHonoursEveryRequest :
    IsRun turns turnRun ∧ WeaklyFair turns turnRun ∧ (∀ m, 0 ≤ m → turns m ≠ .reset) ∧
    (turnRun 0).pending = true ∧ (turnRun 0).tmrEn = true ∧ (turnRun 0).tmrIen = true := by
  refine ⟨fun n => ?_, ⟨fun n h => ⟨n + n % 2, by omega, ?_⟩, fun n h => ⟨n + (n + 1) % 2, by omega, ?_⟩⟩, fun m _ => ?_, rfl, rfl, rfl⟩
  · unfold turns
    by_cases h : n % 2 = 0 <;> simp [h, takeMove, turnRun]
  · have he : (n + n % 2) % 2 = 0 := by omega
    simp only [turns, he, if_true, expiryTaken]
    exact h _ (by omega)
  · have he : ¬(n + (n + 1) % 2) % 2 = 0 := by omega
    simp only [turns, he, if_false, tickTaken]
    exact h _ (by omega)
  · unfold turns
    split <;> decide

/-- A word sent while another stands at the port; a word presented at a free port. -/
theorem witness_HostSendsAnyWordAtAnyTime :
    (move { due with portHead := some 9#32 } (.send 0xFFFFFFFF#32)).schedule = .send 0xFFFFFFFF#32 :: [] ∧
    (let s := move { due with hostQueue := [0xFFFFFFFF#32] } .present;
      s.schedule = .present :: [] ∧ s.portHead = none ∧ s.hostQueue = 0xFFFFFFFF#32 :: []) := by decide

/-- A host that polls STATUS for ever. -/
theorem witness_EveryStreamOfWordsCanBeExecuted :
    due.portHead = none ∧ due.hostQueue = [] ∧ ∀ n : Nat, waitsForSwap (decode ((fun _ => 0xA0000000#32) n)) = false :=
  ⟨rfl, rfl, fun _ => show waitsForSwap (decode 0xA0000000#32) = false by decide⟩

end Sys2Proof.Tests
end

section
/-! PROOFS. Progress: every command, every agent's step and every step of the machine answers a next state
(00_scope.md R15, 60_exceptions.md R166). -/

namespace Sys2Proof.Machine

/-- A guarded outcome answers a next state when both of its branches do. -/
theorem exists_next_ite (c : Prop) [Decidable c] (o o' : Host.Outcome State Fault Refusal)
    (h : ∃ t, o = .next t) (h' : ∃ t, o' = .next t) : ∃ t, (if c then o else o') = .next t := by
  by_cases hc : c
  · simpa only [if_pos hc] using h
  · simpa only [if_neg hc] using h'

/-- No command stops the machine: each arm of Execute(cmd) ends in a next state, the arms with a hold or a guard in every
branch (41_host_commands.md R120). -/
theorem exec_next (i : Instr) (s : State) : ∃ t, exec i s = .next t := by
  cases i with
  | nop => exact ⟨s, rfl⟩
  | setPixel x y c => exact exists_next_ite _ _ _ ⟨s, rfl⟩ (exists_next_ite _ _ _ ⟨writeBackCell x y c s, rfl⟩ ⟨s, rfl⟩)
  | getPixel x y =>
    exact exists_next_ite _ _ _ ⟨respond ((backCell x y s).setWidth 32) s, rfl⟩ ⟨respond 0#32 s, rfl⟩
  | refresh => exact exists_next_ite _ _ _ ⟨s, rfl⟩ ⟨{ s with pending := true }, rfl⟩
  | start => exact exists_next_ite _ _ _ ⟨s, rfl⟩ ⟨timerStart (periodTicks 0#2) s, rfl⟩
  | status => exact ⟨respond (statusWord s) s, rfl⟩
  | rsvd6 => exact ⟨raiseCmdFault 6#3 s, rfl⟩
  | rsvd7 => exact ⟨raiseCmdFault 7#3 s, rfl⟩

/-- Taking the executed word off the port head keeps a next state one. -/
theorem consumeHead_next (o : Host.Outcome State Fault Refusal) (h : ∃ t, o = .next t) : ∃ t, consumeHead o = .next t := by
  obtain ⟨u, rfl⟩ := h
  exact ⟨{ u with portHead := none }, rfl⟩

/-- HostStep answers a next state: at an empty port, at a held head, and where the word is executed. -/
theorem hostStep_next (s : State) : ∃ t, hostStep s = .next t := by
  unfold hostStep
  split
  next => exact ⟨s, rfl⟩
  next w _ => exact exists_next_ite _ _ _ ⟨s, rfl⟩ (consumeHead_next _ (exec_next (decode w) _))

/-- Every mover's transition answers a next state (60_exceptions.md R150): only the host's, and the one at a command
boundary, depend on a command. -/
theorem takeMove_next (m : Move) (s : State) : ∃ t, takeMove m s = .next t := by
  cases m with
  | send w => exact ⟨sendWord w s, rfl⟩
  | present => exact ⟨presentWord s, rfl⟩
  | host => exact hostStep_next s
  | expire => exact ⟨expire s, rfl⟩
  | clk => exact ⟨clockEdge s.tmrRc s, rfl⟩
  | tick => exact ⟨tick s, rfl⟩
  | tickOnClk => exact ⟨tickOnClk s, rfl⟩
  | boundary => exact exists_next_ite _ _ _ ⟨tick s, rfl⟩ (hostStep_next s)
  | reset => exact ⟨resetBlock s, rfl⟩

/-- Settles O47: whichever mover comes next, its transition answers a next state, and so does every command. -/
theorem everyStepAnswersANextState : Obligations.EveryStepAnswersANextState :=
  ⟨fun s => takeMove_next (nextMove s) (spendMove s), exec_next⟩

end Sys2Proof.Machine
end

section
/-! PROOFS. What the commands answer and leave (41_host_commands.md R120 to R136). -/

namespace Sys2Proof.Machine

theorem execSetPixel_cases (x y : Int) (c : Color) (s t : State) (h : execSetPixel x y c s = .next t) :
    t = s ∨ t = writeBackCell x y c s := by
  unfold execSetPixel at h
  split at h
  · exact .inl (by injection h with h; exact h.symm)
  · split at h <;> injection h with h
    · exact .inr h.symm
    · exact .inl h.symm

theorem execGetPixel_responds (x y : Int) (s t : State) (h : execGetPixel x y s = .next t) : ∃ v, t = respond v s := by
  unfold execGetPixel at h
  split at h <;> injection h with h <;> exact ⟨_, h.symm⟩

theorem execRefresh_cases (s t : State) (h : execRefresh s = .next t) : t = s ∨ t = { s with pending := true } := by
  unfold execRefresh at h
  split at h <;> injection h with h
  · exact .inl h.symm
  · exact .inr h.symm

theorem execStart_cases (s t : State) (h : execStart s = .next t) : t = s ∨ t = timerStart (periodTicks 0#2) s := by
  unfold execStart at h
  split at h <;> injection h with h
  · exact .inl h.symm
  · exact .inr h.symm

/-- The commands that answer with a response (10_state.md R42). -/
def isRead : Instr → Bool
  | .getPixel _ _ => true
  | .status => true
  | .nop => false
  | .setPixel _ _ _ => false
  | .refresh => false
  | .start => false
  | .rsvd6 => false
  | .rsvd7 => false

theorem isRead_iff (i : Instr) : isRead i = true ↔ (∃ x y, i = .getPixel x y) ∨ i = .status := by
  cases i <;> simp [isRead]

/-- What a command makes of the responses and the fault record: a read appends one response, a reserved opcode raises CmdFault
with itself, and every other command leaves both (10_state.md R35, R42). -/
theorem exec_observed_cases (i : Instr) (s t : State) (h : exec i s = .next t) :
    (isRead i = true ∧ ∃ v, t = respond v s) ∨
    (isRead i = false ∧ (i.opcode = 6#3 ∨ i.opcode = 7#3) ∧ t = raiseCmdFault i.opcode s) ∨
    (isRead i = false ∧ t.responses = s.responses ∧ t.cmdFault = s.cmdFault ∧ t.faultOp = s.faultOp) := by
  cases i with
  | getPixel x y => exact .inl ⟨rfl, execGetPixel_responds x y s t h⟩
  | status =>
    injection h with h
    exact .inl ⟨rfl, _, h.symm⟩
  | rsvd6 =>
    injection h with h
    exact .inr (.inl ⟨rfl, .inl rfl, h.symm⟩)
  | rsvd7 =>
    injection h with h
    exact .inr (.inl ⟨rfl, .inr rfl, h.symm⟩)
  | nop =>
    injection h with h
    subst h
    exact .inr (.inr ⟨rfl, rfl, rfl, rfl⟩)
  | setPixel x y c => obtain rfl | rfl := execSetPixel_cases x y c s t h <;> exact .inr (.inr ⟨rfl, rfl, rfl, rfl⟩)
  | refresh => obtain rfl | rfl := execRefresh_cases s t h <;> exact .inr (.inr ⟨rfl, rfl, rfl, rfl⟩)
  | start => obtain rfl | rfl := execStart_cases s t h <;> exact .inr (.inr ⟨rfl, rfl, rfl, rfl⟩)

/-- The opcode of the decoded command is the word's OP field (30_encoding.md R72, R76). -/
theorem opcode_decode (w : Word) : (decode w).opcode = opField w := by
  have hlt := (opField w).isLt
  apply BitVec.eq_of_toNat_eq
  unfold decode
  generalize (opField w).toNat = n at hlt
  interval_cases n <;> rfl

/-- What every step but a TICK and RESET leaves of the engine and the timer's flags, and appends to the trace. -/
structure EngineKept (s t : State) : Prop where
  bitIdx : t.bitIdx = s.bitIdx
  rowIdx : t.rowIdx = s.rowIdx
  frontSel : t.frontSel = s.frontSel
  pins : t.pins = s.pins
  pending : s.pending = true → t.pending = true
  tmrEn : s.tmrEn = true → t.tmrEn = true
  tmrIen : s.tmrIen = true → t.tmrIen = true
  tickOverrun : s.tickOverrun = true → t.tickOverrun = true
  trace : t.trace = s.trace ∨ ∃ n, t.trace = s.trace ++ [.timerStart n]

/-- No command touches the engine, stops the timer or withdraws a request (41_host_commands.md R121). -/
theorem exec_engineKept (i : Instr) (s t : State) (h : exec i s = .next t) : EngineKept s t := by
  obtain rfl | ⟨x, y, c, -, -, -, rfl⟩ | ⟨v, rfl⟩ | ⟨-, -, rfl⟩ | ⟨-, -, rfl⟩ | ⟨op, -, rfl⟩ := exec_cases i s t h <;>
    constructor <;> simp

/-- Executing a word of the port, around the spent move and the free port, leaves the engine as the command does. -/
theorem engineKept_of_exec {i : Instr} {s u : State} (h : exec i { spendMove s with rspPort := none } = .next u) :
    EngineKept s { u with portHead := none } := by
  have hk := exec_engineKept i _ u h
  exact {
    bitIdx := by simpa using hk.bitIdx
    rowIdx := by simpa using hk.rowIdx
    frontSel := by simpa using hk.frontSel
    pins := by simpa using hk.pins
    pending := by simpa using hk.pending
    tmrEn := by simpa using hk.tmrEn
    tmrIen := by simpa using hk.tmrIen
    tickOverrun := by simpa using hk.tickOverrun
    trace := by simpa using hk.trace }

theorem exec_hostQueue (i : Instr) (s t : State) (h : exec i s = .next t) : t.hostQueue = s.hostQueue := by
  obtain rfl | ⟨x, y, c, -, -, -, rfl⟩ | ⟨v, rfl⟩ | ⟨-, -, rfl⟩ | ⟨-, -, rfl⟩ | ⟨op, -, rfl⟩ := exec_cases i s t h <;> rfl

/-- Only START starts the timer (41_host_commands.md R132, R134). -/
theorem exec_tmrEn_or_start (i : Instr) (s t : State) (h : exec i s = .next t) : t.tmrEn = s.tmrEn ∨ i = .start := by
  obtain rfl | ⟨x, y, c, -, -, -, rfl⟩ | ⟨v, rfl⟩ | ⟨-, -, rfl⟩ | ⟨hi, -, -⟩ | ⟨op, -, rfl⟩ := exec_cases i s t h
  · exact .inl rfl
  · exact .inl rfl
  · exact .inl rfl
  · exact .inl rfl
  · exact .inr hi
  · exact .inl rfl

end Sys2Proof.Machine
end

section
/-! PROOFS. What a step of the block can do, said once (20_memory.md R58, 60_exceptions.md R150). -/

namespace Sys2Proof.Machine

theorem expire_keeps_overrun (s : State) (h : s.tickOverrun = true) : (expire s).tickOverrun = true := by
  obtain ⟨-, he⟩ | ⟨-, -, he⟩ := expire_cases s <;> simp [he, h]

theorem timerTick_keeps_overrun (rc : Word) (s : State) (h : s.tickOverrun = true) : (timerTick rc s).tickOverrun = true := by
  obtain ⟨-, he⟩ | ⟨-, he⟩ := timerTick_cases rc s <;> rw [he]
  · exact expire_keeps_overrun _ h
  · exact h

theorem clockEdge_keeps_overrun (rc : Word) (s : State) (h : s.tickOverrun = true) : (clockEdge rc s).tickOverrun = true := by
  unfold clockEdge prescale
  split
  · split
    · exact timerTick_keeps_overrun _ _ h
    · exact h
  · exact h

/-- How a step that executes no command, takes no TICK and is no RESET moves words at the port: not at all, a word sent, or
the next word presented at a free port (10_state.md R40, 60_exceptions.md R179). -/
inductive PortMoves (s t : State) : Prop
  | kept (hp : t.portHead = s.portHead) (hq : t.hostQueue = s.hostQueue)
  | sent (w : Word) (hm : nextMove s = .send w) (hp : t.portHead = s.portHead) (hq : t.hostQueue = s.hostQueue ++ [w])
  | presented (w : Word) (hm : nextMove s = .present) (hs : s.portHead = none) (hp : t.portHead = some w)
      (hq : s.hostQueue = w :: t.hostQueue)

/-- What a step that executes no command, takes no TICK and is no RESET leaves. The defaults are the field lemmas of the movers'
operations, so that each mover states only where it does more. -/
structure Quiet (s t : State) : Prop where
  bitIdx : t.bitIdx = s.bitIdx := by simp
  rowIdx : t.rowIdx = s.rowIdx := by simp
  frontSel : t.frontSel = s.frontSel := by simp
  pins : t.pins = s.pins := by simp
  pending : t.pending = s.pending := by simp
  tmrEn : t.tmrEn = s.tmrEn := by simp
  tmrIen : t.tmrIen = s.tmrIen := by simp
  tickOverrun : s.tickOverrun = true → t.tickOverrun = true := by simp
  trace : t.trace = s.trace := by simp
  responses : t.responses = s.responses := by simp
  cmdFault : t.cmdFault = s.cmdFault := by simp
  faultOp : t.faultOp = s.faultOp := by simp
  port : PortMoves s t := by exact .kept (by simp) (by simp)

theorem Quiet.engineKept {s t : State} (h : Quiet s t) : EngineKept s t where
  bitIdx := h.bitIdx
  rowIdx := h.rowIdx
  frontSel := h.frontSel
  pins := h.pins
  pending := h.pending.trans
  tmrEn := h.tmrEn.trans
  tmrIen := h.tmrIen.trans
  tickOverrun := h.tickOverrun
  trace := .inl h.trace

theorem presentWord_portMoves (s : State) (hm : nextMove s = .present) : PortMoves s (presentWord (spendMove s)) := by
  unfold presentWord
  split
  next w ws hp hq => exact .presented w hm (by simpa using hp) rfl (by simpa using hq)
  next => exact .kept (by simp) (by simp)

/-- One step, by what it does: a command of the port is executed, a TICK is taken (alone, or on an edge of clk), the block is
reset, or none of these (60_exceptions.md R150). -/
inductive StepTo (s : State) : State → Prop
  | command (w : Word) (u : State) (hm : nextMove s = .host ∨ nextMove s = .boundary)
      (ht : tickTaken (nextMove s) s = false) (hw : s.portHead = some w) (hh : held (decode w) s = false)
      (hx : exec (decode w) { spendMove s with rspPort := none } = .next u) : StepTo s { u with portHead := none }
  | tick (ht : tickTaken (nextMove s) s = true) : StepTo s (tickBody (spendMove s))
  | tickOnEdge (ht : tickTaken (nextMove s) s = true) :
      StepTo s (clockEdge (spendMove s).tmrRc (tickBody (spendMove s)))
  | reset (hm : nextMove s = .reset) : StepTo s (resetBlock (spendMove s))
  | quiet (t : State) (ht : tickTaken (nextMove s) s = false) (hq : Quiet s t) : StepTo s t

theorem spendMove_quiet (s : State) : Quiet s (spendMove s) where

theorem expire_quiet (s : State) : Quiet s (expire (spendMove s)) where
  tickOverrun h := expire_keeps_overrun _ (by simpa using h)

theorem clockEdge_quiet (rc : Word) (s : State) : Quiet s (clockEdge rc (spendMove s)) where
  tickOverrun h := clockEdge_keeps_overrun _ _ (by simpa using h)

theorem presentWord_quiet (s : State) (hm : nextMove s = .present) : Quiet s (presentWord (spendMove s)) where
  port := presentWord_portMoves s hm

theorem sendWord_quiet (w : Word) (s : State) (hm : nextMove s = .send w) : Quiet s (sendWord w (spendMove s)) where
  port := .sent w hm (by simp) (by simp)

/-- A host's step that is not a command executed finds no word, or a held one, and changes nothing. -/
theorem hostStep_stepTo (s t : State) (hm : nextMove s = .host ∨ nextMove s = .boundary)
    (ht : tickTaken (nextMove s) s = false) (h : hostStep (spendMove s) = .next t) : StepTo s t := by
  obtain rfl | ⟨w, u, hw, hh, hx, rfl⟩ := hostStep_cases _ _ h
  · exact .quiet _ ht (spendMove_quiet s)
  · exact .command w u hm ht (by simpa using hw) (by simpa [held] using hh) hx

/-- Every step is one of these. -/
theorem step_cases (s t : State) (h : step s = .next t) : StepTo s t := by
  obtain ⟨hm, rfl⟩ | ⟨hm, hh⟩ | ⟨hm, rfl⟩ | ⟨hm, rfl⟩ | ⟨hm, hp, rfl⟩ | ⟨hm, hp, rfl⟩ | ⟨hm, hp, rfl⟩ | ⟨hm, rfl⟩ |
    ⟨w, hm, rfl⟩ := takeMove_cases _ _ _ h
  · exact .quiet _ (by simp [hm, tickTaken]) (presentWord_quiet s hm)
  · obtain hm | ⟨hm, hp⟩ := hm
    · exact hostStep_stepTo s t (.inl hm) (by simp [hm, tickTaken]) hh
    · exact hostStep_stepTo s t (.inr hm) (by simpa [hm, tickTaken] using hp) hh
  · exact .quiet _ (by simp [hm, tickTaken]) (expire_quiet s)
  · exact .quiet _ (by simp [hm, tickTaken]) (clockEdge_quiet _ s)
  · refine .tick ?_
    obtain hm | hm := hm <;> simpa [hm, tickTaken] using hp
  · exact .tickOnEdge (by simpa [hm, tickTaken] using hp)
  · refine .quiet _ ?_ (spendMove_quiet s)
    obtain hm | hm := hm <;> simpa [hm, tickTaken] using hp
  · exact .reset hm
  · exact .quiet _ (by simp [hm, tickTaken]) (sendWord_quiet w s hm)

/-- A step that takes no TICK and is no RESET leaves the engine; the others make what their operation makes. -/
theorem step_engine_cases (s t : State) (h : step s = .next t) :
    (tickTaken (nextMove s) s = false ∧ EngineKept s t) ∨
    (tickTaken (nextMove s) s = true ∧
      (t = tickBody (spendMove s) ∨ t = clockEdge (spendMove s).tmrRc (tickBody (spendMove s)))) ∨
    (nextMove s = .reset ∧ t = resetBlock (spendMove s)) := by
  cases step_cases s t h with
  | command w u hm ht hw hh hx => exact .inl ⟨ht, engineKept_of_exec hx⟩
  | tick ht => exact .inr (.inl ⟨ht, .inl rfl⟩)
  | tickOnEdge ht => exact .inr (.inl ⟨ht, .inr rfl⟩)
  | reset hm => exact .inr (.inr ⟨hm, rfl⟩)
  | quiet t ht hq => exact .inl ⟨ht, hq.engineKept⟩

end Sys2Proof.Machine
end

section
/-! PROOFS. What ADVANCE and a TICK make of the cursor, the roles, the pins and the trace (40_scan_engine.md R91, R104). -/

namespace Sys2Proof.Machine

/-- The state with the cursor at (b, r). -/
def withCursor (b : BitVec 2) (r : BitVec 3) (s : State) : State := { s with bitIdx := b, rowIdx := r }

/-! What withCursor leaves of the fields that the trace tells, and of the request. -/
@[simp] theorem withCursor_frontSel (b : BitVec 2) (r : BitVec 3) (s : State) : (withCursor b r s).frontSel = s.frontSel := rfl
@[simp] theorem withCursor_pending (b : BitVec 2) (r : BitVec 3) (s : State) : (withCursor b r s).pending = s.pending := rfl
@[simp] theorem withCursor_pins (b : BitVec 2) (r : BitVec 3) (s : State) : (withCursor b r s).pins = s.pins := rfl
@[simp] theorem withCursor_trace (b : BitVec 2) (r : BitVec 3) (s : State) : (withCursor b r s).trace = s.trace := rfl
@[simp] theorem framePos_withCursor (b : BitVec 2) (r : BitVec 3) (s : State) :
    framePos (withCursor b r s) = r.toNat * 4 + b.toNat := rfl

@[simp] theorem framePos_spendMove (s : State) : framePos (spendMove s) = framePos s := by simp [framePos]
@[simp] theorem framePos_swap (s : State) : framePos (swap s) = framePos s := by simp [framePos]
@[simp] theorem framePos_clockEdge (rc : Word) (s : State) : framePos (clockEdge rc s) = framePos s := by simp [framePos]

/-- The place in the frame and the cursor say the same (40_scan_engine.md R105). -/
theorem framePos_eq_mod_iff (s : State) (n : Nat) :
    framePos s = n % 32 ↔ s.bitIdx.toNat = n % 4 ∧ s.rowIdx.toNat = n / 4 % 8 := by
  have hb := s.bitIdx.isLt
  have hr := s.rowIdx.isLt
  unfold framePos
  omega

/-- ADVANCE moves the cursor one place on, modulo the 32 of a frame, and ends with SWAP at the wrap if one is pending
(40_scan_engine.md R104). -/
theorem advance_spec (s : State) : ∃ b r,
    r.toNat * 4 + b.toNat = (framePos s + 1) % 32 ∧
    advance s = if framePos s = 31 ∧ s.pending = true then swap (withCursor b r s) else withCursor b r s := by
  unfold framePos
  obtain ⟨hb, h⟩ | ⟨hb, hr, h⟩ | ⟨hb, hr, hp, h⟩ | ⟨hb, hr, hp, h⟩ := advance_cases s
  · exact ⟨s.bitIdx + 1#2, s.rowIdx, by bv_omega, h.trans (if_neg (by bv_omega)).symm⟩
  · exact ⟨0#2, s.rowIdx + 1#3, by bv_omega, h.trans (if_neg (by bv_omega)).symm⟩
  · exact ⟨0#2, 0#3, by simp [hb, hr], h.trans (if_neg (by simp [hp])).symm⟩
  · exact ⟨0#2, 0#3, by simp [hb, hr], h.trans (if_pos ⟨by simp [hb, hr], hp⟩).symm⟩

/-- What a TICK makes of the state before its ADVANCE: the tick taken, the period loaded, the row-pair shown
(40_scan_engine.md R91). -/
def rowShown (s : State) : State :=
  rowout s.bitIdx s.rowIdx (timerLoad (periodTicks s.bitIdx) { s with tickPending := false })

@[simp] theorem rowShown_frontSel (s : State) : (rowShown s).frontSel = s.frontSel := by simp [rowShown]
@[simp] theorem rowShown_pending (s : State) : (rowShown s).pending = s.pending := by simp [rowShown]
@[simp] theorem framePos_rowShown (s : State) : framePos (rowShown s) = framePos s := by simp [rowShown, framePos]

/-- The pin writes of a TICK are those of the state it starts from: taking the tick and loading the period touch neither the
stores nor the roles. -/
theorem rowShown_eq (s : State) : rowShown s =
    pinWrites (rowoutWrites s s.bitIdx s.rowIdx) (timerLoad (periodTicks s.bitIdx) { s with tickPending := false }) :=
  congrArg (pinWrites · _) (rowoutWrites_congr _ _ _ _ rfl rfl)

@[simp] theorem rowShown_trace (s : State) : (rowShown s).trace =
    s.trace ++ .timerLoad (periodTicks s.bitIdx) :: pinEvents (rowoutWrites s s.bitIdx s.rowIdx) := by
  simp [rowShown_eq, pinWrites_trace, pinEvents]

@[simp] theorem rowShown_pins (s : State) :
    (rowShown s).pins = pinsAfter s.pins (pinEvents (rowoutWrites s s.bitIdx s.rowIdx)) := by
  simp [rowShown_eq, pinWrites_pins, pinsAfter_pinEvents]

theorem tickBody_eq (s : State) : tickBody s = advance (rowShown s) := rfl

/-- A TICK shows the row-pair of the cursor, moves the cursor one place on, and ends with SWAP at the wrap if one is pending
(40_scan_engine.md R91, R104). -/
theorem tickBody_spec (s : State) : ∃ b r,
    r.toNat * 4 + b.toNat = (framePos s + 1) % 32 ∧
    tickBody s =
      if framePos s = 31 ∧ s.pending = true then swap (withCursor b r (rowShown s)) else withCursor b r (rowShown s) := by
  simpa only [tickBody_eq, framePos_rowShown, rowShown_pending] using advance_spec (rowShown s)

@[simp] theorem tickBody_tmrIen (s : State) : (tickBody s).tmrIen = true := by simp [tickBody]

theorem tickBody_framePos (s : State) : framePos (tickBody s) = (framePos s + 1) % 32 := by
  obtain ⟨b, r, hc, h⟩ := tickBody_spec s
  rw [h]
  split <;> simpa using hc

/-- The TICK of (3,7) with a swap pending exchanges the roles and clears the request; every other TICK does neither
(40_scan_engine.md R104, R110). -/
theorem tickBody_roles (s : State) :
    (framePos s = 31 ∧ s.pending = true ∧ (tickBody s).frontSel = 1#1 - s.frontSel ∧ (tickBody s).pending = false) ∨
    ((tickBody s).frontSel = s.frontSel ∧ (tickBody s).pending = s.pending) := by
  obtain ⟨b, r, -, h⟩ := tickBody_spec s
  rw [h]
  split
  next hw => exact .inl ⟨hw.1, hw.2, by simp, by simp⟩
  next => exact .inr ⟨by simp, by simp⟩

/-- A TICK only appends to the trace (40_scan_engine.md R91). -/
theorem tickBody_trace_grows (s : State) : ∃ evs, (tickBody s).trace = s.trace ++ evs := by
  obtain ⟨b, r, -, h⟩ := tickBody_spec s
  rw [h]
  split
  · exact ⟨_, by rw [swap_trace, withCursor_trace, rowShown_trace, List.append_assoc]⟩
  · exact ⟨_, rowShown_trace s⟩

end Sys2Proof.Machine
end

section
/-! PROOFS. What the trace tells of the block is kept by every step (10_state.md R36, 40_scan_engine.md R92, R105, R116). -/

namespace Sys2Proof.Machine

/-- The TICKs since Reset that the trace shows give the place in the frame. -/
theorem TraceTells.framePos_eq_ticks {s : State} (h : TraceTells s) : framePos s = ticksAfter 0 s.trace % 32 :=
  (framePos_eq_mod_iff s _).2 ⟨h.plane, h.row⟩

/-- In a state that its trace tells, the TICKs since the last Swap give the place in the frame too. -/
theorem TraceTells.framePos_eq_frameTicks {s : State} (h : TraceTells s) : framePos s = frameTicksAfter 0 s.trace % 32 := by
  rw [h.framePos_eq_ticks, frameTicksAfter_mod _ 0 0 _ h.framed rfl]

/-- A TICK loads the period of the plane that its number in the frame names (40_scan_engine.md R92, R105). -/
theorem TraceTells.plane_eq_frameTicks {s : State} (h : TraceTells s) : BitVec.ofNat 2 (frameTicksAfter 0 s.trace) = s.bitIdx := by
  obtain ⟨hb, -⟩ := (framePos_eq_mod_iff s _).1 h.framePos_eq_frameTicks
  exact BitVec.eq_of_toNat_eq (by simp [hb])

/-- A TICK without SWAP keeps what the trace tells: one TimerLoad, and the cursor one place on. -/
theorem traceTells_rowShown {s : State} (h : TraceTells s) (b : BitVec 2) (r : BitVec 3)
    (hc : r.toNat * 4 + b.toNat = (framePos s + 1) % 32) : TraceTells (withCursor b r (rowShown s)) := by
  have hticks : ticksAfter 0 (withCursor b r (rowShown s)).trace = ticksAfter 0 s.trace + 1 := by
    simp [ticksAfter_append, ticksAfter]
  have hpos := h.framePos_eq_ticks
  obtain ⟨hplane, hrow⟩ := (framePos_eq_mod_iff (withCursor b r (rowShown s)) (ticksAfter 0 s.trace + 1)).1
    (by rw [framePos_withCursor]; omega)
  constructor
  case plane => rw [hticks, hplane]
  case row => rw [hticks, hrow]
  case role => simp [frontAfter_append, frontAfter, ← h.role]
  case levels => simp [pinsAfter_append, pinsAfter, ← h.levels]
  case framed =>
    rw [withCursor_trace, rowShown_trace, framedTrace_append]
    exact ⟨h.framed, by rw [h.plane_eq_frameTicks], framedTrace_pinEvents _ _ _⟩

/-- SWAP at the start of a frame, after at least one TICK, keeps what the trace tells. -/
theorem traceTells_swap {s : State} (h : TraceTells s) (h0 : framePos s = 0) (hn : 0 < frameTicksAfter 0 s.trace) :
    TraceTells (swap s) := by
  constructor
  case plane => simpa [ticksAfter_append, ticksAfter] using h.plane
  case row => simpa [ticksAfter_append, ticksAfter] using h.row
  case role => simp [frontAfter_append, frontAfter]
  case levels => simpa [pinsAfter_append, pinsAfter] using h.levels
  case framed =>
    rw [swap_trace, framedTrace_append]
    exact ⟨h.framed, hn, h.framePos_eq_frameTicks.symm.trans h0, by rw [h.role], trivial⟩

theorem traceTells_tickBody {s : State} (h : TraceTells s) : TraceTells (tickBody s) := by
  obtain ⟨b, r, hc, ht⟩ := tickBody_spec s
  have hrow := traceTells_rowShown h b r hc
  rw [ht]
  split
  next hw =>
    refine traceTells_swap hrow (by rw [framePos_withCursor]; omega) ?_
    simp [frameTicksAfter_append, frameTicksAfter]
  next => exact hrow

/-- After RESET the trace tells the reset values (70_reset_and_hazards.md R180). -/
theorem traceTells_resetBlock {s : State} (h : TraceTells s) : TraceTells (resetBlock s) := by
  constructor
  case plane => simp [ticksAfter_append, ticksAfter]
  case row => simp [ticksAfter_append, ticksAfter]
  case role => simp [frontAfter_append, frontAfter]
  case levels => simp [pinsAfter_append, pinsAfter]
  case framed =>
    rw [resetBlock_trace, framedTrace_append]
    exact ⟨h.framed, trivial⟩

/-- What leaves the engine keeps what the trace tells: a TimerStart shows no TICK, no Swap and no level. -/
theorem traceTells_of_engineKept {s t : State} (h : TraceTells s) (hk : EngineKept s t) : TraceTells t := by
  obtain ht | ⟨n, ht⟩ := hk.trace
  · exact TraceTells.congr s t h hk.bitIdx hk.rowIdx hk.frontSel hk.pins ht
  · have hs : TraceTells { s with trace := t.trace } := by
      constructor
      case plane => simpa [ht, ticksAfter_append, ticksAfter] using h.plane
      case row => simpa [ht, ticksAfter_append, ticksAfter] using h.row
      case role => simpa [ht, frontAfter_append, frontAfter] using h.role
      case levels => simpa [ht, pinsAfter_append, pinsAfter] using h.levels
      case framed => simpa [ht, framedTrace_append, FramedTrace] using h.framed
    exact TraceTells.congr _ t hs hk.bitIdx hk.rowIdx hk.frontSel hk.pins rfl

/-- Settles O50: only a TICK and RESET append what moves the cursor, the roles or the pins, and each does as it says. -/
theorem everyStepKeepsWhatTheTraceTells : Obligations.EveryStepKeepsWhatTheTraceTells := by
  intro s t hs h
  have hu : TraceTells (spendMove s) := traceTells_of_engineKept hs (spendMove_quiet s).engineKept
  obtain ⟨-, hk⟩ | ⟨-, rfl | rfl⟩ | ⟨-, rfl⟩ := step_engine_cases s t h
  · exact traceTells_of_engineKept hs hk
  · exact traceTells_tickBody hu
  · exact TraceTells.congr _ _ (traceTells_tickBody hu) (by simp) (by simp) (by simp) (by simp) (by simp)
  · exact traceTells_resetBlock hu

end Sys2Proof.Machine
end

section
/-! PROOFS. The other statements of 10_state.md: responses, roles, cursor, fault record, timer flags, reset, port, observations. -/

namespace Sys2Proof.Machine

/-- Settles O17, command by command. -/
theorem onlyReadCommandsRespond : Obligations.OnlyReadCommandsRespond := by
  intro i s t h
  rw [← isRead_iff]
  obtain ⟨hi, v, rfl⟩ | ⟨hi, -, rfl⟩ | ⟨hi, hr, -⟩ := exec_observed_cases i s t h
  · exact ⟨fun _ => ⟨v, rfl⟩, fun hn => absurd hi hn⟩
  · exact ⟨fun hn => by simp [hi] at hn, fun _ => rfl⟩
  · exact ⟨fun hn => by simp [hi] at hn, fun _ => hr⟩

/-- Settles O29: no step but a TICK changes the roles or withdraws a request, and a TICK does so only at the wrap. -/
theorem swapOnlyAtTheFrameWrap : Obligations.SwapOnlyAtTheFrameWrap := by
  intro s t h hm hc
  have hmoved : t.frontSel = s.frontSel → ¬(s.pending = true → t.pending = true) := by
    intro hf hp
    obtain hf' | ⟨hs, ht⟩ := hc
    · exact hf' hf
    · simp [hp hs] at ht
  obtain ⟨-, hk⟩ | ⟨ht, heq⟩ | ⟨hr, -⟩ := step_engine_cases s t h
  · exact absurd hk.pending (hmoved hk.frontSel)
  · have hedge : t.frontSel = (tickBody (spendMove s)).frontSel ∧ t.pending = (tickBody (spendMove s)).pending ∧
        framePos t = framePos (tickBody (spendMove s)) := by
      obtain rfl | rfl := heq <;> simp
    obtain ⟨hfront, hpend, hpos⟩ := hedge
    rw [tickBody_framePos, framePos_spendMove] at hpos
    obtain ⟨h31, hp, hf', hp'⟩ | ⟨hf', hp'⟩ := tickBody_roles (spendMove s)
    · simp only [framePos_spendMove, spendMove_pending, spendMove_frontSel] at h31 hp hf'
      exact ⟨ht, h31, hp, hpend.trans hp', hfront.trans hf', by rw [hpos, h31]⟩
    · rw [hf', spendMove_frontSel] at hfront
      rw [hp', spendMove_pending] at hpend
      exact absurd hpend.trans (hmoved hfront)
  · exact absurd hr hm

/-- Settles O31: no step but a TICK moves the cursor, and a TICK moves it one place on. -/
theorem cursorMovesOnlyByTick : Obligations.CursorMovesOnlyByTick := by
  intro s t h hm
  obtain ⟨ht, hk⟩ | ⟨ht, heq⟩ | ⟨hr, -⟩ := step_engine_cases s t h
  · exact ⟨fun _ => ⟨hk.bitIdx, hk.rowIdx⟩, by simp [ht]⟩
  · refine ⟨by simp [ht], fun _ => ?_⟩
    obtain rfl | rfl := heq <;> simp [tickBody_framePos]
  · exact absurd hr hm

/-- A step that is no RESET leaves the fault record, or it executes a reserved word and raises CmdFault with its opcode
(10_state.md R35, 41_host_commands.md R136). -/
theorem step_fault_cases (s t : State) (h : step s = .next t) (hm : nextMove s ≠ .reset) :
    (t.cmdFault = s.cmdFault ∧ t.faultOp = s.faultOp) ∨
    (∃ w, (nextMove s = .host ∨ nextMove s = .boundary) ∧ s.portHead = some w ∧ (opField w = 6#3 ∨ opField w = 7#3) ∧
      t.cmdFault = true ∧ t.faultOp = if s.cmdFault then s.faultOp else opField w) := by
  cases step_cases s t h with
  | command w u hmv ht hw hh hx =>
    obtain ⟨-, v, rfl⟩ | ⟨-, hop, rfl⟩ | ⟨-, -, hc, ho⟩ := exec_observed_cases _ _ _ hx
    · exact .inl ⟨by simp, by simp⟩
    · rw [opcode_decode] at hop
      exact .inr ⟨w, hmv, hw, hop, rfl, by simp [opcode_decode]⟩
    · exact .inl ⟨by simpa using hc, by simpa using ho⟩
  | tick ht => exact .inl ⟨by simp, by simp⟩
  | tickOnEdge ht => exact .inl ⟨by simp, by simp⟩
  | reset hr => exact absurd hr hm
  | quiet t ht hq => exact .inl ⟨hq.cmdFault, hq.faultOp⟩

/-- Settles O40: only a reserved word's CmdFault writes the record, and it keeps one that is there. -/
theorem faultRecordIsSticky : Obligations.FaultRecordIsSticky := by
  refine ⟨fun op s => rfl, fun s t h hm => ?_⟩
  obtain ⟨hc, ho⟩ | ⟨w, hmv, hw, hop, hc, ho⟩ := step_fault_cases s t h hm
  · exact ⟨fun hf => ⟨hc.trans hf, ho⟩, fun hf hf' => by simp [hc, hf] at hf', fun _ _ => ho⟩
  · refine ⟨fun hf => ⟨hc, by simpa [hf] using ho⟩, fun hf _ => ⟨w, hmv, hw, hop, by simpa [hf] using ho⟩, fun _ hf => ?_⟩
    simp [hc] at hf

/-- Settles O41: commands, TICKs and the other movers keep the flags, and only START sets tmr_en. -/
theorem timerRunsUntilReset : Obligations.TimerRunsUntilReset := by
  intro s t h hm
  cases step_cases s t h with
  | command w u hmv ht hw hh hx =>
    have hk := engineKept_of_exec hx
    exact ⟨hk.tmrEn, hk.tmrIen, hk.tickOverrun,
      fun hs he => ⟨w, hmv, hw, by simpa [hs, show u.tmrEn = true from he] using exec_tmrEn_or_start _ _ _ hx⟩⟩
  | tick ht => exact ⟨by simp, by simp, by simp, fun hs he => by simp [hs] at he⟩
  | tickOnEdge ht =>
    exact ⟨by simp, by simp, fun ho => clockEdge_keeps_overrun _ _ (by simpa using ho), fun hs he => by simp [hs] at he⟩
  | reset hr => exact absurd hr hm
  | quiet t ht hq => exact ⟨hq.tmrEn.trans, hq.tmrIen.trans, hq.tickOverrun, fun hs he => by simp [hq.tmrEn, hs] at he⟩

/-- Settles O42: the next state is that of resetBlock, whatever the state before. -/
theorem resetRestoresEveryRegister : Obligations.ResetRestoresEveryRegister := by
  intro s hm
  refine ⟨resetBlock (spendMove s), by rw [step, hm]; rfl, fun a => rfl, rfl, rfl, rfl, rfl, rfl, rfl, rfl, rfl, rfl, rfl, rfl,
    rfl, rfl, fun p => ?_, rfl, rfl⟩
  cases p <;> rfl

/-- A step that is no RESET executes the word at the port head, or moves words as the host's side does, or moves none
(10_state.md R40). -/
theorem step_port_cases (s t : State) (h : step s = .next t) (hm : nextMove s ≠ .reset) :
    (∃ w, (nextMove s = .host ∨ nextMove s = .boundary) ∧ s.portHead = some w ∧ held (decode w) s = false ∧
      t.portHead = none ∧ t.hostQueue = s.hostQueue) ∨ PortMoves s t := by
  cases step_cases s t h with
  | command w u hmv ht hw hh hx => exact .inl ⟨w, hmv, hw, hh, rfl, by simpa using exec_hostQueue _ _ _ hx⟩
  | tick ht => exact .inr (.kept (by simp) (by simp))
  | tickOnEdge ht => exact .inr (.kept (by simp) (by simp))
  | reset hr => exact absurd hr hm
  | quiet t ht hq => exact .inr hq.port

/-- Settles O44, by what can happen at the port in a step. -/
theorem portHoldsItsWord : Obligations.PortHoldsItsWord := by
  intro s t h hm
  obtain ⟨w, hmv, hw, hh, hp, hq⟩ | hmoves := step_port_cases s t h hm
  · refine ⟨fun w' hw' _ => ⟨hp, ?_, hmv⟩, fun _ hn => absurd hp hn, .inl hq⟩
    obtain rfl : w = w' := by simpa [hw] using hw'
    exact hh
  · cases hmoves with
    | kept hp hq => exact ⟨fun w hw hn => absurd (hp.trans hw) hn, fun hs hn => absurd (hp.trans hs) hn, .inl hq⟩
    | sent w hs hp hq =>
      exact ⟨fun w hw hn => absurd (hp.trans hw) hn, fun hs hn => absurd (hp.trans hs) hn, .inr (.inr ⟨w, hs, hq⟩)⟩
    | presented w hs hfree hp hq =>
      exact ⟨fun w hw => by simp [hfree] at hw, fun _ _ => ⟨w, _, hq, hp, rfl⟩, .inr (.inl ⟨hs, hfree⟩)⟩

/-- A step only appends to the trace (10_state.md R46). -/
theorem step_trace_grows (s t : State) (h : step s = .next t) : ∃ evs, t.trace = s.trace ++ evs := by
  obtain ⟨evs, hevs⟩ := tickBody_trace_grows (spendMove s)
  rw [spendMove_trace] at hevs
  obtain ⟨-, hk⟩ | ⟨-, rfl | rfl⟩ | ⟨-, rfl⟩ := step_engine_cases s t h
  · obtain ht | ⟨n, ht⟩ := hk.trace
    · exact ⟨[], by simp [ht]⟩
    · exact ⟨_, ht⟩
  · exact ⟨evs, hevs⟩
  · exact ⟨evs, by rw [clockEdge_trace, hevs]⟩
  · exact ⟨[.reset], by simp⟩

/-- A step appends at most one response (10_state.md R42). -/
theorem step_responses (s t : State) (h : step s = .next t) :
    t.responses = s.responses ∨ ∃ v, t.responses = s.responses ++ [v] := by
  cases step_cases s t h with
  | command w u hmv ht hw hh hx =>
    obtain ⟨-, v, rfl⟩ | ⟨-, -, rfl⟩ | ⟨-, hr, -⟩ := exec_observed_cases _ _ _ hx
    · exact .inr ⟨v, by simp⟩
    · exact .inl (by simp)
    · exact .inl (by simpa using hr)
  | tick ht => exact .inl (by simp)
  | tickOnEdge ht => exact .inl (by simp)
  | reset hr => exact .inl (by simp)
  | quiet t ht hq => exact .inl hq.responses

/-- Settles O46. A RESET appends its event and no response (10_state.md R46; log 7). -/
theorem observationsOnlyGrow : Obligations.ObservationsOnlyGrow :=
  fun s t h => ⟨step_trace_grows s t h, step_responses s t h⟩

/-- Settles O45: cmd_ready is low where the head is held. -/
theorem readyIsLowWhileHeld : Obligations.ReadyIsLowWhileHeld := by
  intro s w hw hh
  have hhead : headHeld s = true := by simp only [headHeld, hw, hh]
  simp [cmdReady, hhead]

theorem inv_reset : Inv State.reset where
  memCanonical := State.reset_mem_wf
  interruptEnabled := rfl
  periodPositive := by decide
  prescalerInRange := Config.timerDiv.pos
  tickNeedsTimer := by decide
  faultRecord := rfl
  rowPresented := ⟨rfl, rfl⟩
  idleBeforeStart _ := ⟨rfl, rfl, rfl, rfl, rfl, rfl, rfl, rfl⟩

/-- Settles O48: every field is at its reset value, and the trace is empty. -/
theorem resetStateMeetsTheInvariant : Obligations.ResetStateMeetsTheInvariant :=
  ⟨inv_reset, rfl, rfl, rfl, rfl, trivial⟩

end Sys2Proof.Machine
end

section
/-! PROOFS. The invariant of the block is kept by every step (20_memory.md R50, 70_reset_and_hazards.md R182). -/

namespace Sys2Proof.Machine

/-- Every period that is loaded is a period of at least one timer tick (60_exceptions.md R155). -/
theorem periodTicks_pos (b : BitVec 2) : 1 ≤ (periodTicks b).toNat := by
  rw [periodTicks_toNat]
  exact (quantizeWith_bounds _ _ _).1

@[simp] theorem tickBody_tmrRc (s : State) : (tickBody s).tmrRc = periodTicks s.bitIdx := by simp [tickBody]

/-- ROWOUT's last two writes drop LAT and OE (40_scan_engine.md R100). -/
theorem rowout_lat_oe (b : BitVec 2) (r : BitVec 3) (s : State) :
    (rowout b r s).pins.lat = false ∧ (rowout b r s).pins.oe = false := by
  rw [rowout, pinWrites_pins, ← List.take_append_drop 261 (rowoutWrites s b r), rowoutWrites_drop, List.foldl_append]
  exact ⟨rfl, rfl⟩

theorem tickBody_lat_oe (s : State) : (tickBody s).pins.lat = false ∧ (tickBody s).pins.oe = false := by
  rw [tickBody_eq, advance_pins]
  exact rowout_lat_oe _ _ _

theorem inv_spendMove {s : State} (hi : Inv s) : Inv (spendMove s) := by
  rw [spendMove_eq]
  exact { hi with }

theorem inv_presentWord {s : State} (hi : Inv s) : Inv (presentWord s) := by
  unfold presentWord
  split
  · exact { hi with }
  · exact hi

theorem inv_expire {s : State} (hi : Inv s) : Inv (expire s) := by
  obtain ⟨-, he⟩ | ⟨hen, -, he⟩ := expire_cases s <;> rw [he]
  · exact hi
  · exact { hi with tickNeedsTimer := fun _ => hen, idleBeforeStart := fun h => nomatch hen.symm.trans h }

theorem Inv.withRspPort {s : State} (hi : Inv s) (v : Option Word) : Inv { s with rspPort := v } := { hi with }

/-- While the timer runs, its count is free. -/
theorem Inv.withCount {s : State} (hi : Inv s) (hen : s.tmrEn = true) (n : Word) : Inv { s with tmrCnt := n } :=
  { hi with idleBeforeStart := fun h => nomatch hen.symm.trans h }

/-- While the timer runs, its prescaler is free below TIMER_DIV (10_state.md R33). -/
theorem Inv.withPrescaler {s : State} (hi : Inv s) (hen : s.tmrEn = true) (n : Nat) (hn : n < Config.timerDiv) :
    Inv { s with tmrPre := n } :=
  { hi with prescalerInRange := hn, idleBeforeStart := fun h => nomatch hen.symm.trans h }

theorem inv_timerTick {s : State} (rc : Word) (hi : Inv s) (hen : s.tmrEn = true) : Inv (timerTick rc s) := by
  obtain ⟨-, ht⟩ | ⟨-, ht⟩ := timerTick_cases rc s <;> rw [ht]
  · exact inv_expire (hi.withCount hen _)
  · exact hi.withCount hen _

theorem inv_prescale {s : State} (rc : Word) (hi : Inv s) : Inv (prescale rc s) := by
  obtain ⟨-, hp⟩ | ⟨hen, -, hp⟩ | ⟨hen, hlt, hp⟩ := prescale_cases rc s hi.prescalerInRange <;> rw [hp]
  · exact hi
  · exact inv_timerTick rc (hi.withPrescaler hen 0 Config.timerDiv.pos) hen
  · exact hi.withPrescaler hen _ hlt

theorem inv_clockEdge {s : State} (rc : Word) (hi : Inv s) : Inv (clockEdge rc s) :=
  inv_prescale rc (hi.withRspPort none)

/-- A due TICK finds the timer running, loads a period and leaves LAT and OE low (60_exceptions.md R162,
40_scan_engine.md R91, R100). -/
theorem inv_tickBody {s : State} (hi : Inv s) (hp : s.tickPending = true) : Inv (tickBody s) where
  memCanonical := tickBody_mem_wf s hi.memCanonical
  interruptEnabled := by simp [hi.tickNeedsTimer hp]
  periodPositive _ := by simpa using periodTicks_pos s.bitIdx
  prescalerInRange := by simpa using hi.prescalerInRange
  tickNeedsTimer _ := by simpa using hi.tickNeedsTimer hp
  faultRecord := by simpa using hi.faultRecord
  rowPresented := tickBody_lat_oe s
  idleBeforeStart h := by simp [hi.tickNeedsTimer hp] at h

theorem inv_timerStart {s : State} (hi : Inv s) (b : BitVec 2) : Inv (timerStart (periodTicks b) s) :=
  { hi with
    interruptEnabled := rfl
    periodPositive := fun _ => periodTicks_pos b
    prescalerInRange := Config.timerDiv.pos
    tickNeedsTimer := fun _ => rfl
    idleBeforeStart := fun h => nomatch h }

/-- CmdFault records a reserved opcode, or leaves the record that is there (10_state.md R35). -/
theorem inv_raiseCmdFault {s : State} (hi : Inv s) (op : BitVec 3) (hop : op = 6#3 ∨ op = 7#3) : Inv (raiseCmdFault op s) :=
  { hi with
    faultRecord := by
      have hf := hi.faultRecord
      cases h : s.cmdFault
      · simpa [raiseCmdFault, h] using hop
      · simpa [raiseCmdFault, h] using hf }

theorem inv_exec {i : Instr} {s t : State} (hi : Inv s) (h : exec i s = .next t) : Inv t := by
  obtain rfl | ⟨x, y, c, -, -, hr, rfl⟩ | ⟨v, rfl⟩ | ⟨-, -, rfl⟩ | ⟨-, -, rfl⟩ | ⟨op, hop, rfl⟩ := exec_cases i s t h
  · exact hi
  · exact { hi with memCanonical := writeBackCell_mem_wf x y c s hi.memCanonical hr }
  · exact { hi with }
  · exact { hi with }
  · exact inv_timerStart hi _
  · exact inv_raiseCmdFault hi op hop

theorem inv_hostStep {s t : State} (hi : Inv s) (h : hostStep s = .next t) : Inv t := by
  obtain rfl | ⟨w, u, -, -, hx, rfl⟩ := hostStep_cases s t h
  · exact hi
  · exact { inv_exec (hi.withRspPort none) hx with }

theorem inv_takeMove {m : Move} {s t : State} (hi : Inv s) (h : takeMove m s = .next t) : Inv t := by
  obtain ⟨-, rfl⟩ | ⟨-, hh⟩ | ⟨-, rfl⟩ | ⟨-, rfl⟩ | ⟨-, hp, rfl⟩ | ⟨-, hp, rfl⟩ | ⟨-, -, rfl⟩ | ⟨-, rfl⟩ | ⟨w, -, rfl⟩ :=
    takeMove_cases m s t h
  · exact inv_presentWord hi
  · exact inv_hostStep hi hh
  · exact inv_expire hi
  · exact inv_clockEdge _ hi
  · exact inv_tickBody hi hp
  · exact inv_clockEdge _ (inv_tickBody hi hp)
  · exact hi
  · exact { inv_reset with }
  · exact { hi with }

/-- Settles O49: spending the move touches no register, and every mover's operation keeps the invariant. -/
theorem everyStepKeepsTheInvariant : Obligations.EveryStepKeepsTheInvariant :=
  fun _ _ hi h => inv_takeMove (inv_spendMove hi) h

end Sys2Proof.Machine
end

section
/-! PROOFS. Which steps write a cell (20_memory.md R53). -/

namespace Sys2Proof.Machine

@[simp] theorem tickTaken_spendMove (m : Move) (s : State) : tickTaken m (spendMove s) = tickTaken m s := by
  simp [tickTaken]

theorem backStore_toNat (s : State) : (backStore s).toNat = 1 - s.frontSel.toNat := by
  unfold backStore
  bv_omega

/-- The pixel space after a move m from state s, by what writes cells: nothing, a SETPIXEL of the word at the port head, the
zero-fill of SWAP in the TICK of (3,7), or RESET. -/
inductive CellWrites (m : Move) (s : State) : Memory → Prop
  | nothing : CellWrites m s s.mem
  | setPixel (w : Word) (x y : Int) (c : Color) (hm : m = .host ∨ m = .boundary) (hw : s.portHead = some w)
      (hd : decode w = .setPixel x y c) (hp : s.pending = false) (hr : inRange x y = true) :
      CellWrites m s (writeBackCell x y c s).mem
  | zeroFill (ht : tickTaken m s = true) (hpos : framePos s = 31) (hp : s.pending = true) : CellWrites m s (swap s).mem
  | reset (hm : m = .reset) : CellWrites m s []

/-- Among the commands, SETPIXEL alone writes a cell (41_host_commands.md R121, R124). -/
theorem hostStep_cellWrites {m : Move} {s t : State} (hm : m = .host ∨ m = .boundary) (h : hostStep s = .next t) :
    CellWrites m s t.mem := by
  obtain rfl | ⟨w, u, hw, -, hx, rfl⟩ := hostStep_cases s t h
  · exact .nothing
  · obtain rfl | ⟨x, y, c, hd, hp, hr, rfl⟩ | ⟨v, rfl⟩ | ⟨-, -, rfl⟩ | ⟨-, -, rfl⟩ | ⟨op, -, rfl⟩ := exec_cases _ _ _ hx
    · exact .nothing
    · exact .setPixel w x y c hm hw hd hp hr
    · exact .nothing
    · exact .nothing
    · exact .nothing
    · exact .nothing

/-- A TICK writes cells only as the zero-fill of its SWAP (40_scan_engine.md R102, R110). -/
theorem tickBody_cellWrites {m : Move} {s : State} (ht : tickTaken m s = true) : CellWrites m s (tickBody s).mem := by
  obtain ⟨b, r, -, h⟩ := tickBody_spec s
  have hrow : (withCursor b r (rowShown s)).mem = s.mem := by simp [withCursor, rowShown]
  rw [h]
  split
  next hw =>
    rw [swap_mem_congr _ s hrow (by simp)]
    exact .zeroFill ht hw.1 hw.2
  next =>
    rw [hrow]
    exact .nothing

theorem takeMove_cellWrites {m : Move} {s t : State} (h : takeMove m s = .next t) : CellWrites m s t.mem := by
  obtain ⟨-, rfl⟩ | ⟨hm, hh⟩ | ⟨-, rfl⟩ | ⟨-, rfl⟩ | ⟨hm, hp, rfl⟩ | ⟨hm, hp, rfl⟩ | ⟨-, -, rfl⟩ | ⟨hm, rfl⟩ | ⟨w, -, rfl⟩ :=
    takeMove_cases m s t h
  · simpa using CellWrites.nothing
  · exact hostStep_cellWrites (hm.imp_right And.left) hh
  · simpa using CellWrites.nothing
  · simpa using CellWrites.nothing
  · exact tickBody_cellWrites (by obtain rfl | rfl := hm <;> exact hp)
  · simpa using tickBody_cellWrites (m := m) (by subst hm; exact hp)
  · exact .nothing
  · exact .reset hm
  · exact .nothing

/-- What the write of a back cell makes of an address: the addressed back cell takes the color, all else stays. -/
theorem writeBackCell_read (x y : Int) (c : Color) (s : State) (hs : Memory.wf s.mem) (a : Nat) :
    (writeBackCell x y c s).mem.read a =
      if a = (1 - s.frontSel.toNat) * 512 + (y.toNat * 32 + x.toNat) then c else s.mem.read a := by
  rw [writeBackCell_mem, Memory.read_write _ hs, pixAddr, backStore_toNat, cellIndex]

/-- An address that reads otherwise after a move was written in one of the three ways of 20_memory.md R53. -/
theorem CellWrites.of_read_ne {m : Move} {s : State} {μ : Memory} {a : Nat} (hw : CellWrites m s μ) (hs : Memory.wf s.mem)
    (hne : μ.read a ≠ s.mem.read a) :
    (∃ w x y c, (m = .host ∨ m = .boundary) ∧ s.portHead = some w ∧ decode w = .setPixel x y c ∧ s.pending = false ∧
      0 ≤ x ∧ x < 32 ∧ 0 ≤ y ∧ y < 16 ∧ a = (1 - s.frontSel.toNat) * 512 + (y.toNat * 32 + x.toNat) ∧ μ.read a = c) ∨
    (tickTaken m s = true ∧ framePos s = 31 ∧ s.pending = true ∧
      s.frontSel.toNat * 512 ≤ a ∧ a < s.frontSel.toNat * 512 + 512 ∧ μ.read a = 0#16) ∨
    (m = .reset ∧ μ.read a = 0#16) := by
  cases hw with
  | nothing => exact absurd rfl hne
  | setPixel w x y c hm hw hd hp hr =>
    rw [writeBackCell_read x y c s hs] at hne ⊢
    obtain ⟨hx, hx', hy, hy'⟩ := (inRange_iff x y).1 hr
    have ha : a = (1 - s.frontSel.toNat) * 512 + (y.toNat * 32 + x.toNat) := by
      by_contra ha
      exact hne (if_neg ha)
    exact .inl ⟨w, x, y, c, hm, hw, hd, hp, hx, hx', hy, hy', ha, if_pos ha⟩
  | zeroFill ht hpos hp =>
    rw [swap_read s hs, pixAddr, Nat.add_zero] at hne ⊢
    have ha : s.frontSel.toNat * 512 ≤ a ∧ a < s.frontSel.toNat * 512 + 512 := by
      by_contra ha
      exact hne (if_neg ha)
    exact .inr (.inl ⟨ht, hpos, hp, ha.1, ha.2, if_pos ha⟩)
  | reset hm => exact .inr (.inr ⟨hm, Memory.read_nil a⟩)

/-- Settles O30, by what a move writes; spending the move leaves every field that the statement names. -/
theorem cellsChangeOnlyByTheirWriters : Obligations.CellsChangeOnlyByTheirWriters := by
  intro s t a hs h hne
  have hs' : Memory.wf (spendMove s).mem := by rwa [spendMove_mem]
  have hne' : t.mem.read a ≠ (spendMove s).mem.read a := by rwa [spendMove_mem]
  simpa using (takeMove_cellWrites h).of_read_ne hs' hne'

end Sys2Proof.Machine
end

section
/-! PROOFS. What a move makes of the due tick, the timer's flags, the place in the frame and a request
(60_exceptions.md R150). -/

namespace Sys2Proof.Machine

theorem expire_keeps_tickPending (s : State) (h : s.tickPending = true) : (expire s).tickPending = true := by
  obtain ⟨-, he⟩ | ⟨-, -, he⟩ := expire_cases s <;> simp [he, h]

theorem timerTick_keeps_tickPending (rc : Word) (s : State) (h : s.tickPending = true) :
    (timerTick rc s).tickPending = true := by
  obtain ⟨-, he⟩ | ⟨-, he⟩ := timerTick_cases rc s <;> rw [he]
  · exact expire_keeps_tickPending _ h
  · exact h

theorem clockEdge_keeps_tickPending (rc : Word) (s : State) (h : s.tickPending = true) :
    (clockEdge rc s).tickPending = true := by
  unfold clockEdge prescale
  split
  · split
    · exact timerTick_keeps_tickPending _ _ h
    · exact h
  · exact h

/-- No command touches the due tick (41_host_commands.md R121). -/
theorem hostStep_tickPending (s t : State) (h : hostStep s = .next t) : t.tickPending = s.tickPending := by
  obtain rfl | ⟨w, u, -, -, hx, rfl⟩ := hostStep_cases s t h
  · rfl
  · obtain rfl | ⟨x, y, c, -, -, -, rfl⟩ | ⟨v, rfl⟩ | ⟨-, -, rfl⟩ | ⟨-, -, rfl⟩ | ⟨op, -, rfl⟩ := exec_cases _ _ _ hx <;> rfl

/-- A due tick stays due until its TICK or RESET (60_exceptions.md R162). -/
theorem takeMove_keeps_tickPending {m : Move} {s t : State} (h : takeMove m s = .next t) (hm : m ≠ .reset)
    (ht : tickTaken m s = false) (hp : s.tickPending = true) : t.tickPending = true := by
  obtain ⟨-, rfl⟩ | ⟨-, hh⟩ | ⟨-, rfl⟩ | ⟨-, rfl⟩ | ⟨rfl | rfl, -, -⟩ | ⟨rfl, -, -⟩ | ⟨-, -, rfl⟩ | ⟨hr, -⟩ | ⟨w, -, rfl⟩ :=
    takeMove_cases m s t h
  · simpa using hp
  · rwa [hostStep_tickPending s t hh]
  · exact expire_keeps_tickPending s hp
  · exact clockEdge_keeps_tickPending _ s hp
  · simp [tickTaken, hp] at ht
  · simp [tickTaken, hp] at ht
  · simp [tickTaken, hp] at ht
  · exact hp
  · exact absurd hr hm
  · exact hp

theorem expire_sets_tickPending (s : State) (hen : s.tmrEn = true) (hien : s.tmrIen = true) :
    (expire s).tickPending = true := by
  simp [expire, hen, hien]

/-- The edge of the match is an expiry (60_exceptions.md R153). -/
theorem clockEdge_sets_tickPending (s : State) (he : edgeExpires s = true) (hien : s.tmrIen = true) :
    (clockEdge s.tmrRc s).tickPending = true := by
  simp only [edgeExpires, Bool.and_eq_true, decide_eq_true_eq] at he
  obtain ⟨⟨hen, hpre⟩, hcnt⟩ := he
  simp only [clockEdge, prescale, if_pos hen, if_pos hpre, timerTick, if_pos hcnt]
  exact expire_sets_tickPending _ hen hien

/-- An EXPIRE makes a tick due, unless the same move takes a TICK (60_exceptions.md R160). -/
theorem takeMove_expiry {m : Move} {s t : State} (h : takeMove m s = .next t) (he : expiryTaken m s = true)
    (ht : tickTaken m s = false) (hien : s.tmrIen = true) : t.tickPending = true := by
  cases m with
  | expire =>
    obtain rfl := Host.Outcome.next.inj h
    exact expire_sets_tickPending s he hien
  | clk =>
    obtain rfl := Host.Outcome.next.inj h
    exact clockEdge_sets_tickPending s he hien
  | tickOnClk =>
    have hp : s.tickPending = false := ht
    simp [expiryTaken, hp] at he
  | send w => nomatch he
  | present => nomatch he
  | host => nomatch he
  | tick => nomatch he
  | boundary => nomatch he
  | reset => nomatch he

/-- The state with the move m next: what is known of a step is known of a move. -/
def scheduled (m : Move) (s : State) : State := { s with schedule := m :: s.schedule }

theorem step_scheduled (m : Move) (s : State) : step (scheduled m s) = takeMove m s :=
  step_of_schedule (scheduled m s) m s.schedule rfl

/-- A move that is no RESET leaves the timer running and its interrupt enabled (10_state.md R30). -/
theorem takeMove_timer {m : Move} {s t : State} (h : takeMove m s = .next t) (hm : m ≠ .reset) :
    (s.tmrEn = true → t.tmrEn = true) ∧ (s.tmrIen = true → t.tmrIen = true) := by
  obtain ⟨hen, hien, -⟩ := timerRunsUntilReset (scheduled m s) t (by rwa [step_scheduled]) hm
  exact ⟨hen, hien⟩

/-- A TICK moves the cursor one place on, and no other move but RESET moves it (40_scan_engine.md R104). -/
theorem takeMove_framePos {m : Move} {s t : State} (h : takeMove m s = .next t) (hm : m ≠ .reset) :
    (tickTaken m s = false → framePos t = framePos s) ∧ (tickTaken m s = true → framePos t = (framePos s + 1) % 32) := by
  obtain ⟨hkeep, hnext⟩ := cursorMovesOnlyByTick (scheduled m s) t (by rwa [step_scheduled]) hm
  refine ⟨fun ht => ?_, hnext⟩
  obtain ⟨hb, hr⟩ := hkeep ht
  rw [framePos, hb, hr]
  rfl

/-- The move m takes the TICK of (3,7), the last of a frame (40_scan_engine.md R105). -/
def WrapTick (m : Move) (s : State) : Prop := tickTaken m s = true ∧ framePos s = 31

/-- A request stands, and the roles stay, through every move but RESET and the TICK of (3,7) (10_state.md R24, R26). -/
theorem takeMove_request_stands {m : Move} {s t : State} (h : takeMove m s = .next t) (hm : m ≠ .reset)
    (hw : ¬WrapTick m s) (hp : s.pending = true) : t.pending = true ∧ t.frontSel = s.frontSel := by
  have hkeep : ¬(t.frontSel ≠ s.frontSel ∨ (s.pending = true ∧ t.pending = false)) := fun hc => by
    obtain ⟨ht, hpos, -⟩ := swapOnlyAtTheFrameWrap (scheduled m s) t (by rwa [step_scheduled]) hm hc
    exact hw ⟨ht, hpos⟩
  simpa [hp, and_comm] using hkeep

/-- The TICK of (3,7) with a request pending runs SWAP (40_scan_engine.md R104, R110). -/
theorem tickBody_honours (s : State) (hpos : framePos s = 31) (hp : s.pending = true) :
    (tickBody s).pending = false ∧ (tickBody s).frontSel = 1#1 - s.frontSel := by
  obtain ⟨b, r, -, h⟩ := tickBody_spec s
  rw [h, if_pos ⟨hpos, hp⟩]
  exact ⟨by simp, by simp⟩

theorem takeMove_wrapTick {m : Move} {s t : State} (h : takeMove m s = .next t) (hw : WrapTick m s) (hp : s.pending = true) :
    t.pending = false ∧ t.frontSel = 1#1 - s.frontSel := by
  obtain ⟨ht, hpos⟩ := hw
  obtain ⟨hf, -⟩ | ⟨-, rfl | rfl⟩ | ⟨hr, -⟩ := step_engine_cases (scheduled m s) t (by rwa [step_scheduled])
  · exact absurd (hf.symm.trans ht) (by decide)
  · exact tickBody_honours s hpos hp
  · rw [clockEdge_pending, clockEdge_frontSel]
    exact tickBody_honours s hpos hp
  · obtain rfl : m = .reset := hr
    nomatch ht

end Sys2Proof.Machine
end

section
/-! PROOFS. Weakly fair runs: a pending request is honoured (20_memory.md R65, 60_exceptions.md R177). -/

namespace Sys2Proof.Machine

/-- A weakly fair run that is not reset from transition n on, and whose timer runs there. -/
structure FairFrom (mv : Nat → Move) (r : Nat → State) (n : Nat) : Prop where
  isRun : IsRun mv r
  fair : WeaklyFair mv r
  noReset : ∀ m, n ≤ m → mv m ≠ .reset
  tmrEn : (r n).tmrEn = true
  tmrIen : (r n).tmrIen = true

section
variable {mv : Nat → Move} {r : Nat → State} {n : Nat}

theorem FairFrom.succ (h : FairFrom mv r n) : FairFrom mv r (n + 1) := by
  obtain ⟨hen, hien⟩ := takeMove_timer (h.isRun n) (h.noReset n le_rfl)
  exact { h with noReset := fun m hm => h.noReset m (by omega), tmrEn := hen h.tmrEn, tmrIen := hien h.tmrIen }

theorem FairFrom.later (h : FairFrom mv r n) {m : Nat} (hm : n ≤ m) : FairFrom mv r m := by
  induction m, hm using Nat.le_induction with
  | base => exact h
  | succ m _ ih => exact ih.succ

/-- Some TICK is still to come: a due tick that no TICK takes stays due, so that fairness takes it. -/
theorem FairFrom.exists_tick (h : FairFrom mv r n) : ∃ m, n ≤ m ∧ tickTaken (mv m) (r m) = true := by
  by_contra hno
  have hnone : ∀ m, n ≤ m → tickTaken (mv m) (r m) = false := by simpa using hno
  obtain ⟨e, hne, he⟩ := h.fair.expiries n fun m hm => (h.later hm).tmrEn
  have hdue : ∀ m, e + 1 ≤ m → (r m).tickPending = true := fun m hm => by
    induction m, hm using Nat.le_induction with
    | base => exact takeMove_expiry (h.isRun e) he (hnone e hne) (h.later hne).tmrIen
    | succ m hm ih => exact takeMove_keeps_tickPending (h.isRun m) (h.noReset m (by omega)) (hnone m (by omega)) ih
  obtain ⟨m, hm, ht⟩ := h.fair.ticks (e + 1) hdue
  simp [hnone m (by omega)] at ht

/-- The next TICK finds the cursor where it is now. -/
theorem FairFrom.exists_tick_here (h : FairFrom mv r n) :
    ∃ m, n ≤ m ∧ tickTaken (mv m) (r m) = true ∧ framePos (r m) = framePos (r n) := by
  obtain ⟨m, hm, ht⟩ := h.exists_tick
  obtain ⟨d, rfl⟩ := Nat.exists_eq_add_of_le hm
  clear hm
  induction d generalizing n with
  | zero => exact ⟨n, le_rfl, ht, rfl⟩
  | succ d ih =>
    cases hn : tickTaken (mv n) (r n) with
    | true => exact ⟨n, le_rfl, hn, rfl⟩
    | false =>
      obtain ⟨m, hm, ht', hpos⟩ := ih h.succ (by rwa [Nat.add_right_comm])
      exact ⟨m, by omega, ht', hpos.trans ((takeMove_framePos (h.isRun n) (h.noReset n le_rfl)).1 hn)⟩

/-- The frame in progress comes to its last TICK: each TICK takes the cursor one place on. -/
theorem FairFrom.exists_wrapTick (h : FairFrom mv r n) : ∃ m, n ≤ m ∧ WrapTick (mv m) (r m) := by
  obtain ⟨d, hd⟩ : ∃ d, framePos (r n) + d = 31 := by
    have hb := (r n).bitIdx.isLt
    have hr := (r n).rowIdx.isLt
    exact ⟨31 - framePos (r n), by unfold framePos; omega⟩
  induction d generalizing n with
  | zero =>
    obtain ⟨m, hm, ht, hpos⟩ := h.exists_tick_here
    exact ⟨m, hm, ht, hpos.trans hd⟩
  | succ d ih =>
    obtain ⟨m, hm, ht, hpos⟩ := h.exists_tick_here
    have hm' := h.later hm
    have hnext := (takeMove_framePos (hm'.isRun m) (hm'.noReset m le_rfl)).2 ht
    obtain ⟨k, hk, hw⟩ := ih hm'.succ (by omega)
    exact ⟨k, by omega, hw⟩

/-- A request stands until the first TICK of (3,7), which honours it. -/
theorem FairFrom.honours (h : FairFrom mv r n) (hp : (r n).pending = true) :
    ∃ m, n < m ∧ (r m).pending = false ∧ (r m).frontSel = 1#1 - (r n).frontSel ∧
      ∀ k, n ≤ k → k < m → (r k).pending = true ∧ (r k).frontSel = (r n).frontSel := by
  obtain ⟨w, hw, hfirst⟩ : ∃ w, (n ≤ w ∧ WrapTick (mv w) (r w)) ∧ ∀ k, k < w → ¬(n ≤ k ∧ WrapTick (mv k) (r k)) := by
    classical
    exact ⟨Nat.find h.exists_wrapTick, Nat.find_spec h.exists_wrapTick, fun k => Nat.find_min h.exists_wrapTick⟩
  obtain ⟨hnw, hwrap⟩ := hw
  have hstands : ∀ k, n ≤ k → k ≤ w → (r k).pending = true ∧ (r k).frontSel = (r n).frontSel := fun k hk => by
    induction k, hk using Nat.le_induction with
    | base => exact fun _ => ⟨hp, rfl⟩
    | succ k hk ih =>
      intro hkw
      obtain ⟨hp', hf'⟩ := ih (by omega)
      obtain ⟨hpend, hfront⟩ := takeMove_request_stands (h.isRun k) (h.noReset k hk) (fun hc => hfirst k hkw ⟨hk, hc⟩) hp'
      exact ⟨hpend, hfront.trans hf'⟩
  obtain ⟨hpw, hfw⟩ := hstands w hnw le_rfl
  obtain ⟨hpend, hfront⟩ := takeMove_wrapTick (h.isRun w) hwrap hpw
  exact ⟨w + 1, by omega, hpend, by rw [hfront, hfw], fun k hk hkw => hstands k hk (by omega)⟩

end

/-- Settles O53: fairness brings the TICK of (3,7), the first of which honours the request. -/
theorem fairRunHonoursEveryRequest : Obligations.FairRunHonoursEveryRequest :=
  fun _ _ _ hrun hfair hreset hp hen hien => FairFrom.honours ⟨hrun, hfair, hreset, hen, hien⟩ hp

end Sys2Proof.Machine
end

section
/-! PROOFS. The decoder and the encoder: what the fields of an encoded word are, what a command reads of a word, and that each
undoes the other (30_encoding.md R71 to R80, R85). -/

namespace Sys2Proof

/-! The fields of an encoded word (30_encoding.md R85). -/

@[simp] theorem opField_enc (op : BitVec 3) (x y : Int) (c : Color) : opField (enc op x y c) = op := by
  rw [opField, enc, BitVec.extractLsb'_append_eq_of_le (by decide), BitVec.extractLsb'_append_eq_of_le (by decide)]
  exact BitVec.extractLsb'_append_eq_left

@[simp] theorem xField_enc (op : BitVec 3) (x y : Int) (c : Color) : xField (enc op x y c) = BitVec.ofInt 7 x := by
  rw [xField, enc, BitVec.extractLsb'_append_eq_of_le (by decide), BitVec.extractLsb'_append_eq_of_le (by decide)]
  exact BitVec.extractLsb'_append_eq_right

@[simp] theorem yField_enc (op : BitVec 3) (x y : Int) (c : Color) : yField (enc op x y c) = BitVec.ofInt 6 y := by
  rw [yField, enc, BitVec.extractLsb'_append_eq_of_le (by decide)]
  exact BitVec.extractLsb'_append_eq_right

@[simp] theorem colorField_enc (op : BitVec 3) (x y : Int) (c : Color) : colorField (enc op x y c) = c :=
  BitVec.extractLsb'_append_eq_right

theorem xEncodable_iff (x : Int) : xEncodable x = true ↔ -64 ≤ x ∧ x ≤ 63 := by simp [xEncodable]

theorem yEncodable_iff (y : Int) : yEncodable y = true ↔ -32 ≤ y ∧ y ≤ 31 := by simp [yEncodable]

/-- A column in the range of its field is read back (30_encoding.md R73, R83). -/
theorem xOperand_enc (op : BitVec 3) (x y : Int) (c : Color) (hx : xEncodable x = true) : xOperand (enc op x y c) = x := by
  rw [xEncodable_iff] at hx
  rw [xOperand, xField_enc]
  exact BitVec.toInt_ofInt_eq_self (by decide) (by omega) (by omega)

/-- A row in the range of its field is read back (30_encoding.md R74, R83). -/
theorem yOperand_enc (op : BitVec 3) (x y : Int) (c : Color) (hy : yEncodable y = true) : yOperand (enc op x y c) = y := by
  rw [yEncodable_iff] at hy
  rw [yOperand, yField_enc]
  exact BitVec.toInt_ofInt_eq_self (by decide) (by omega) (by omega)

/-- A field of seven signed bits holds only columns that can be encoded (30_encoding.md R73). -/
theorem xEncodable_xOperand (w : Word) : xEncodable (xOperand w) = true := by
  have hlo := (xField w).le_toInt
  have hhi := (xField w).toInt_lt
  rw [xEncodable_iff, xOperand]
  omega

/-- A field of six signed bits holds only rows that can be encoded (30_encoding.md R74). -/
theorem yEncodable_yOperand (w : Word) : yEncodable (yOperand w) = true := by
  have hlo := (yField w).le_toInt
  have hhi := (yField w).toInt_lt
  rw [yEncodable_iff, yOperand]
  omega

/-- The four fields are the whole word (30_encoding.md R71). -/
theorem enc_fields (w : Word) : enc (opField w) (xOperand w) (yOperand w) (colorField w) = w := by
  rw [enc, xOperand, yOperand, BitVec.ofInt_toInt, BitVec.ofInt_toInt, opField, xField, yField, colorField,
    BitVec.extractLsb'_append_extractLsb'_eq_extractLsb' (show 29 = 22 + 7 from rfl),
    BitVec.extractLsb'_append_extractLsb'_eq_extractLsb' (show 22 = 16 + 6 from rfl),
    BitVec.extractLsb'_append_extractLsb'_eq_extractLsb' (show 16 = 0 + 16 from rfl)]
  exact BitVec.extractLsb'_eq_self

/-- The operands of the command are those that the fields of w hold; a command without operands reads none
(30_encoding.md R76). -/
def Instr.OperandsFrom (w : Word) : Instr → Prop
  | .setPixel x y c => xOperand w = x ∧ yOperand w = y ∧ colorField w = c
  | .getPixel x y => xOperand w = x ∧ yOperand w = y
  | .nop => True
  | .refresh => True
  | .start => True
  | .status => True
  | .rsvd6 => True
  | .rsvd7 => True

theorem operandsFrom_decode (w : Word) : (decode w).OperandsFrom w := by
  unfold decode
  split <;> simp [Instr.OperandsFrom]

/-- A word decodes to a command exactly when its OP is the command's opcode and its fields hold the operands
(30_encoding.md R80). -/
theorem decode_eq_iff (w : Word) (i : Instr) : decode w = i ↔ opField w = i.opcode ∧ i.OperandsFrom w := by
  constructor
  · rintro rfl
    exact ⟨(Machine.opcode_decode w).symm, operandsFrom_decode w⟩
  · rintro ⟨hop, hargs⟩
    unfold decode
    rw [hop]
    cases i with
    | setPixel x y c =>
      obtain ⟨rfl, rfl, rfl⟩ := hargs
      rfl
    | getPixel x y =>
      obtain ⟨rfl, rfl⟩ := hargs
      rfl
    | nop => rfl
    | refresh => rfl
    | start => rfl
    | status => rfl
    | rsvd6 => rfl
    | rsvd7 => rfl

/-- The encoding of a well-formed command holds its opcode and its operands (30_encoding.md R85). -/
theorem decode_encode (i : Instr) (h : i.wellFormed = true) : decode (encode i) = i := by
  rw [decode_eq_iff]
  cases i with
  | setPixel x y c =>
    obtain ⟨hx, hy⟩ := (Bool.and_eq_true _ _).mp h
    exact ⟨opField_enc _ _ _ _, xOperand_enc _ _ _ _ hx, yOperand_enc _ _ _ _ hy, colorField_enc _ _ _ _⟩
  | getPixel x y =>
    obtain ⟨hx, hy⟩ := (Bool.and_eq_true _ _).mp h
    exact ⟨opField_enc _ _ _ _, xOperand_enc _ _ _ _ hx, yOperand_enc _ _ _ _ hy⟩
  | nop => exact ⟨opField_enc _ _ _ _, trivial⟩
  | refresh => exact ⟨opField_enc _ _ _ _, trivial⟩
  | start => exact ⟨opField_enc _ _ _ _, trivial⟩
  | status => exact ⟨opField_enc _ _ _ _, trivial⟩
  | rsvd6 => exact ⟨opField_enc _ _ _ _, trivial⟩
  | rsvd7 => exact ⟨opField_enc _ _ _ _, trivial⟩

/-- Settles O2, by the fields of the encoded word. -/
theorem decodeGivesBackEveryEncodedCommand : Obligations.DecodeGivesBackEveryEncodedCommand := decode_encode

/-- What is decoded fits the fields it was read from (30_encoding.md R83). -/
theorem wellFormed_decode (w : Word) : (decode w).wellFormed = true := by
  have hops := operandsFrom_decode w
  cases hi : decode w with
  | setPixel x y c =>
    rw [hi] at hops
    obtain ⟨rfl, rfl, -⟩ := hops
    exact (Bool.and_eq_true _ _).mpr ⟨xEncodable_xOperand w, yEncodable_yOperand w⟩
  | getPixel x y =>
    rw [hi] at hops
    obtain ⟨rfl, rfl⟩ := hops
    exact (Bool.and_eq_true _ _).mpr ⟨xEncodable_xOperand w, yEncodable_yOperand w⟩
  | nop => rfl
  | refresh => rfl
  | start => rfl
  | status => rfl
  | rsvd6 => rfl
  | rsvd7 => rfl

/-- The mask of a command without operands clears every field but OP (30_encoding.md R76). -/
theorem enc_and_opMask (op : BitVec 3) (x y : Int) (c : Color) : enc op x y c &&& 0xE0000000#32 = enc op 0 0 0 := by
  have hz : ∀ op : BitVec 3, op ++ 0#29 = enc op 0 0 0 := by decide
  rw [Laws.enc_masked, hz]

/-- The mask of GETPIXEL clears COLOR alone (30_encoding.md R76). -/
theorem enc_and_coordMask (op : BitVec 3) (x y : Int) (c : Color) : enc op x y c &&& 0xFFFF0000#32 = enc op x y 0 := by
  have hm : (0xFFFF0000#32 : Word) = BitVec.allOnes 3 ++ BitVec.allOnes 7 ++ BitVec.allOnes 6 ++ 0#16 := by decide
  rw [hm, enc, BitVec.and_append, BitVec.and_append, BitVec.and_append, BitVec.and_allOnes, BitVec.and_allOnes,
    BitVec.and_allOnes, BitVec.and_zero]
  rfl

/-- The canonical word of a command is any word that holds its opcode and operands, with the ignored bits cleared
(30_encoding.md R76, R77). -/
theorem encode_eq_masked (w : Word) (i : Instr) (h : i.OperandsFrom w) :
    encode i = enc i.opcode (xOperand w) (yOperand w) (colorField w) &&& usedMask i := by
  cases i with
  | setPixel x y c =>
    obtain ⟨rfl, rfl, rfl⟩ := h
    exact BitVec.and_allOnes.symm
  | getPixel x y =>
    obtain ⟨rfl, rfl⟩ := h
    exact (enc_and_coordMask _ _ _ _).symm
  | nop => exact (enc_and_opMask _ _ _ _).symm
  | refresh => exact (enc_and_opMask _ _ _ _).symm
  | start => exact (enc_and_opMask _ _ _ _).symm
  | status => exact (enc_and_opMask _ _ _ _).symm
  | rsvd6 => exact (enc_and_opMask _ _ _ _).symm
  | rsvd7 => exact (enc_and_opMask _ _ _ _).symm

theorem encode_decode (w : Word) : encode (decode w) = w &&& usedMask (decode w) := by
  rw [encode_eq_masked w _ (operandsFrom_decode w), Machine.opcode_decode, enc_fields]

/-- Settles O3, by the fields that the decoded command was read from. -/
theorem encodingADecodedWordClearsIgnoredBits : Obligations.EncodingADecodedWordClearsIgnoredBits :=
  fun w => ⟨wellFormed_decode w, encode_decode w⟩

/-- Which bits a command uses is said by its opcode alone (30_encoding.md R76). -/
theorem usedMask_eq_of_opcode (i : Instr) :
    usedMask i = if i.opcode = 1#3 then 0xFFFFFFFF#32 else if i.opcode = 2#3 then 0xFFFF0000#32 else 0xE0000000#32 := by
  cases i <;> rfl

/-- A mask that covers OP leaves it (30_encoding.md R71). -/
theorem opField_and (w m : Word) (hm : opField m = 7#3) : opField (w &&& m) = opField w := by
  have h7 : ∀ op : BitVec 3, op &&& 7#3 = op := by decide
  calc opField (w &&& m) = opField w &&& opField m := BitVec.extractLsb'_and
    _ = opField w := by rw [hm, h7]

theorem opField_usedMask (i : Instr) : opField (usedMask i) = 7#3 := by
  rw [usedMask_eq_of_opcode]
  split
  · decide
  · split <;> decide

/-- Clearing the ignored bits of a word leaves what it decodes to (30_encoding.md R76, R88). -/
theorem decode_and_usedMask (w : Word) : decode (w &&& usedMask (decode w)) = decode w := by
  rw [← encode_decode, decode_encode _ (wellFormed_decode w)]

/-- Settles O5: both words have the OP of their common masked word, so one mask, and decode as that word does. -/
theorem ignoredFieldsDecodeAlike : Obligations.IgnoredFieldsDecodeAlike := by
  intro w w' h
  have hop : opField w' = opField w := by
    rw [← opField_and w' _ (opField_usedMask (decode w)), ← h, opField_and w _ (opField_usedMask _)]
  have hmask : usedMask (decode w') = usedMask (decode w) := by
    rw [usedMask_eq_of_opcode, usedMask_eq_of_opcode, Machine.opcode_decode, Machine.opcode_decode, hop]
  calc decode w' = decode (w' &&& usedMask (decode w)) := by rw [← hmask, decode_and_usedMask]
    _ = decode w := by rw [← h, decode_and_usedMask]

/-! The fields as numbers (30_encoding.md R71 to R75). -/

theorem opField_toNat (w : Word) : (opField w).toNat = w.toNat / 2 ^ 29 := by
  have hlt := w.isLt
  rw [opField, BitVec.extractLsb'_toNat, Nat.shiftRight_eq_div_pow]
  omega

theorem xOperand_eq (w : Word) :
    xOperand w = ((w.toNat / 2 ^ 22 % 128 : Nat) : Int) - 128 * ((w.toNat / 2 ^ 28 % 2 : Nat) : Int) := by
  rw [xOperand, BitVec.toInt_eq_toNat_cond, xField, BitVec.extractLsb'_toNat, Nat.shiftRight_eq_div_pow]
  omega

theorem yOperand_eq (w : Word) :
    yOperand w = ((w.toNat / 2 ^ 16 % 64 : Nat) : Int) - 64 * ((w.toNat / 2 ^ 21 % 2 : Nat) : Int) := by
  rw [yOperand, BitVec.toInt_eq_toNat_cond, yField, BitVec.extractLsb'_toNat, Nat.shiftRight_eq_div_pow]
  omega

theorem colorField_eq (w : Word) : colorField w = BitVec.ofNat 16 (w.toNat % 2 ^ 16) := by
  apply BitVec.eq_of_toNat_eq
  rw [colorField, BitVec.extractLsb'_toNat, BitVec.toNat_ofNat, Nat.mod_mod, Nat.shiftRight_zero]

/-- A word whose OP is the number of the command's opcode and whose fields hold the operands decodes to it. -/
theorem decode_of_op (w : Word) (i : Instr) (hop : w.toNat / 2 ^ 29 = i.opcode.toNat) (hargs : i.OperandsFrom w) :
    decode w = i :=
  (decode_eq_iff w i).2 ⟨BitVec.eq_of_toNat_eq ((opField_toNat w).trans hop), hargs⟩

/-- Settles O4, row by row. -/
theorem decodeReadsTheFields : Obligations.DecodeReadsTheFields := by
  intro w n x y
  refine ⟨?_, fun h => decode_of_op w .nop h trivial,
    fun h => decode_of_op w (.setPixel _ _ _) h ⟨xOperand_eq w, yOperand_eq w, colorField_eq w⟩,
    fun h => decode_of_op w (.getPixel _ _) h ⟨xOperand_eq w, yOperand_eq w⟩,
    fun h => decode_of_op w .refresh h trivial, fun h => decode_of_op w .start h trivial,
    fun h => decode_of_op w .status h trivial, fun h => decode_of_op w .rsvd6 h trivial,
    fun h => decode_of_op w .rsvd7 h trivial⟩
  rw [← opField_toNat]
  exact (opField w).isLt

/-- Settles O1, by evaluation of the words written out in 30_encoding.md R86 and R87. -/
theorem workedWordsDecode : Obligations.WorkedWordsDecode := by
  unfold Obligations.WorkedWordsDecode
  decide

end Sys2Proof
end

section
/-! PROOFS. The assembler's SETPIXEL (30_encoding.md R82, R83) and the reserved opcodes (30_encoding.md R78,
41_host_commands.md R136). -/

namespace Sys2Proof.Machine

/-- A SETPIXEL line with three operands makes the word of that command, if they are in range. -/
theorem asmMnemonic_setPixel (line : Nat) (x y c : Int) :
    asmMnemonic line ['S', 'E', 'T', 'P', 'I', 'X', 'E', 'L'] [x, y, c] =
      asmCommand line (.setPixel x y (BitVec.ofInt 16 c)) (colorEncodable c) := by
  simp [asmMnemonic]

/-- The checks of a SETPIXEL are the ranges of 30_encoding.md R83. -/
theorem setPixel_encodable_iff (x y c : Int) :
    ((Instr.setPixel x y (BitVec.ofInt 16 c)).wellFormed && colorEncodable c) = true ↔
      -64 ≤ x ∧ x ≤ 63 ∧ -32 ≤ y ∧ y ≤ 31 ∧ 0 ≤ c ∧ c ≤ 0xFFFF := by
  simp [Instr.wellFormed, xEncodable_iff, yEncodable_iff, colorEncodable, and_assoc]

/-- Settles O7: the checks are the ranges, and the word of a command that passes them decodes to it. -/
theorem assemblerRefusesWhatDoesNotFit : Obligations.AssemblerRefusesWhatDoesNotFit := by
  intro line x y c
  rw [asmMnemonic_setPixel, asmCommand, ← setPixel_encodable_iff]
  refine ⟨fun h => ⟨_, if_pos h, decode_encode _ ?_⟩, fun h => if_neg h⟩
  exact ((Bool.and_eq_true _ _).mp h).1

/-- A word is read by the OP that any mask covering OP leaves of it (30_encoding.md R77). -/
theorem opField_of_masked {w m v : Word} (h : w &&& m = v) (hm : opField m = 7#3) : opField w = opField v := by
  rw [← h, opField_and w m hm]

/-- A reserved opcode is never held and raises CmdFault with itself (41_host_commands.md R120, R136). -/
theorem exec_reserved (i : Instr) (s : State) (h : i.opcode = 6#3 ∨ i.opcode = 7#3) :
    held i s = false ∧ exec i s = .next (raiseCmdFault i.opcode s) := by
  obtain rfl | rfl : i = .rsvd6 ∨ i = .rsvd7 := by cases i <;> simp [Instr.opcode] at h ⊢
  · exact ⟨rfl, rfl⟩
  · exact ⟨rfl, rfl⟩

/-- The host's step executes the word at the port head that is not held (41_host_commands.md R120). -/
theorem hostStep_of_not_held {s : State} {w : Word} (hw : s.portHead = some w) (hh : held (decode w) s = false) :
    hostStep s = consumeHead (exec (decode w) { s with rspPort := none }) := by
  simp [hostStep, hw, hh]

/-- The host's step consumes a word with a reserved opcode and leaves the fault record with that opcode, unless one is there
(41_host_commands.md R136). -/
theorem hostStep_reserved {s : State} {w : Word} (hw : s.portHead = some w) (hop : opField w = 6#3 ∨ opField w = 7#3) :
    hostStep s = .next { raiseCmdFault (opField w) { s with rspPort := none } with portHead := none } := by
  rw [← opcode_decode] at hop ⊢
  obtain ⟨hh, -⟩ := exec_reserved (decode w) s hop
  obtain ⟨-, hx⟩ := exec_reserved (decode w) { s with rspPort := none } hop
  rw [hostStep_of_not_held hw hh, hx]
  rfl

/-- Settles O15, by the reserved rows of the decoder and the one arm they share. -/
theorem reservedOpcodeRaisesCmdFault : Obligations.ReservedOpcodeRaisesCmdFault :=
  ⟨fun w h => (decode_eq_iff w .rsvd6).2 ⟨opField_of_masked h rfl, trivial⟩,
    fun w h => (decode_eq_iff w .rsvd7).2 ⟨opField_of_masked h rfl, trivial⟩,
    fun s => exec_reserved .rsvd6 s (.inl rfl), fun s => exec_reserved .rsvd7 s (.inr rfl),
    fun _ _ hw hop => ⟨_, hostStep_reserved hw hop, rfl, rfl, rfl, rfl⟩⟩

end Sys2Proof.Machine
end

section
/-! PROOFS. FILL: its expansion, and what executing it paints (30_encoding.md R84). -/

namespace Sys2Proof.Machine

/-- Rows of n entries one after the other are numbered by quotient and remainder. -/
theorem flatMap_map_range {α : Type} (f : Nat → Nat → α) (m n : Nat) (hn : 0 < n) :
    (List.range m).flatMap (fun y => (List.range n).map (f y)) = (List.range (m * n)).map fun k => f (k / n) (k % n) := by
  induction m with
  | zero => simp
  | succ m ih =>
    have hrow : ∀ x ∈ List.range n, f m x = f ((m * n + x) / n) ((m * n + x) % n) := by
      intro x hx
      rw [List.mem_range] at hx
      rw [Nat.mul_add_mod_of_lt hx, Nat.mul_comm, Nat.mul_add_div hn, Nat.div_eq_of_lt hx, Nat.add_zero]
    rw [List.range_succ, List.flatMap_append, ih, Nat.succ_mul, List.range_add, List.map_append, List.map_map,
      List.flatMap_singleton, List.map_congr_left hrow]
    rfl

/-- The k-th SETPIXEL of FILL c: x counts within a row of 32, y counts the rows (30_encoding.md R84). -/
def fillCommand (c : Color) (k : Nat) : Instr := .setPixel ((k % 32 : Nat) : Int) ((k / 32 : Nat) : Int) c

theorem fillCommands_eq (c : Color) : fillCommands c = (List.range 512).map (fillCommand c) :=
  flatMap_map_range (fun y x => Instr.setPixel (x : Int) (y : Int) c) 16 32 (by decide)

/-- Commands executed after commands that answered a next state go on from there. -/
theorem execAll_append (is js : List Instr) (s t : State) (h : execAll is s = .next t) :
    execAll (is ++ js) s = execAll js t := by
  induction is generalizing s with
  | nil =>
    obtain rfl := Host.Outcome.next.inj h
    rfl
  | cons i is ih =>
    obtain ⟨u, hu⟩ := exec_next i s
    simp only [execAll, hu, List.cons_append] at h ⊢
    exact ih u h

/-- An in-range SETPIXEL that is not held writes its back cell (41_host_commands.md R124). -/
theorem exec_setPixel_inRange (x y : Int) (c : Color) (s : State) (hp : s.pending = false) (hr : inRange x y = true) :
    exec (.setPixel x y c) s = .next (writeBackCell x y c s) := by
  simp [exec, execSetPixel, hp, hr]

/-- What the first n SETPIXELs of FILL c make of a state: back cells 0 to n - 1 are c, and nothing else is changed. -/
structure Painted (c : Color) (n : Nat) (s t : State) : Prop where
  frame : t = { s with mem := t.mem }
  canonical : Memory.wf t.mem
  read (a : Nat) : t.mem.read a =
    if (1 - s.frontSel.toNat) * 512 ≤ a ∧ a < (1 - s.frontSel.toNat) * 512 + n then c else s.mem.read a

/-- SETPIXEL n of FILL paints cell n. -/
theorem Painted.step {c : Color} {n : Nat} {s t : State} (h : Painted c n s t) (hn : n < 512) (hp : s.pending = false) :
    ∃ u, exec (fillCommand c n) t = .next u ∧ Painted c (n + 1) s u := by
  have hpt : t.pending = false := by rw [h.frame, hp]
  have hft : t.frontSel = s.frontSel := by rw [h.frame]
  have hr : inRange ((n % 32 : Nat) : Int) ((n / 32 : Nat) : Int) = true := by
    rw [inRange_iff]
    omega
  refine ⟨writeBackCell ((n % 32 : Nat) : Int) ((n / 32 : Nat) : Int) c t, ?_, ?_, ?_, fun a => ?_⟩
  · exact exec_setPixel_inRange _ _ _ _ hpt hr
  · rw [h.frame]
    rfl
  · exact writeBackCell_mem_wf _ _ _ _ h.canonical hr
  · rw [writeBackCell_read _ _ _ _ h.canonical, h.read, hft, Int.toNat_natCast, Int.toNat_natCast, Nat.div_add_mod']
    grind

/-- Executing the first n commands of FILL paints n cells. -/
theorem execAll_fill (c : Color) (n : Nat) (s : State) (hn : n ≤ 512) (hs : Memory.wf s.mem) (hp : s.pending = false) :
    ∃ t, execAll ((List.range n).map (fillCommand c)) s = .next t ∧ Painted c n s t := by
  induction n with
  | zero => exact ⟨s, rfl, rfl, hs, fun a => (if_neg (by omega)).symm⟩
  | succ n ih =>
    obtain ⟨t, ht, hpaint⟩ := ih (by omega)
    obtain ⟨u, hu, hpaint'⟩ := hpaint.step (by omega) hp
    refine ⟨u, ?_, hpaint'⟩
    rw [List.range_succ, List.map_append, execAll_append _ _ _ _ ht]
    simp [execAll, hu]

/-- The cells of a painted back store. -/
theorem Painted.backCells {c : Color} {s t : State} (h : Painted c 512 s t) (j : Nat) (hj : j < 512) :
    pixRead (backStore s) j t = c := by
  rw [pixRead, pixAddr, h.read, backStore_toNat]
  exact if_pos (by omega)

/-- The front store is not painted. -/
theorem Painted.frontCells {c : Color} {n : Nat} {s t : State} (h : Painted c n s t) (hn : n ≤ 512) (j : Nat) (hj : j < 512) :
    pixRead s.frontSel j t = pixRead s.frontSel j s := by
  have hlt := s.frontSel.isLt
  rw [pixRead, pixRead, pixAddr, h.read]
  exact if_neg (by omega)

/-- Settles O6, by induction on the number of SETPIXELs executed. -/
theorem fillPaintsTheBackStore : Obligations.FillPaintsTheBackStore := by
  intro c
  rw [fillCommands_eq]
  refine ⟨by rw [List.length_map, List.length_range], fun k hk => ?_, fun s hs hp => ?_⟩
  · rw [List.getElem?_map, List.getElem?_range hk]
    rfl
  · obtain ⟨t, ht, hpaint⟩ := execAll_fill c 512 s le_rfl hs hp
    exact ⟨t, ht, hpaint.frame, fun j hj => ⟨hpaint.backCells j hj, hpaint.frontCells le_rfl j hj⟩⟩

end Sys2Proof.Machine
end

section
/-! PROOFS. The channel bits of a cell, the pin writes of ROWOUT and the levels they leave (40_scan_engine.md R94 to R103). -/

namespace Sys2Proof.Machine

@[simp] theorem chanBit_chOffR (c : Color) (b : BitVec 2) : chanBit c chOffR b = c.getLsbD (12 + b.toNat) := by
  rw [chanBit, chOffR, Nat.add_right_comm]

@[simp] theorem chanBit_chOffG (c : Color) (b : BitVec 2) : chanBit c chOffG b = c.getLsbD (7 + b.toNat) := by
  rw [chanBit, chOffG, Nat.add_right_comm]

@[simp] theorem chanBit_chOffB (c : Color) (b : BitVec 2) : chanBit c chOffB b = c.getLsbD (1 + b.toNat) := by
  rw [chanBit, chOffB, Nat.add_right_comm]

/-- Settles O23: masking with 1 leaves the lowest bit of the shifted cell. -/
theorem channelBitIsTheShiftedBit : Obligations.ChannelBitIsTheShiftedBit := by
  refine ⟨fun c o b => ?_, fun c b => ⟨chanBit_chOffR c b, chanBit_chOffG c b, chanBit_chOffB c b⟩⟩
  rw [BitVec.and_one_eq_setWidth_ofBool_getLsbD, BitVec.getLsbD_ushiftRight, Nat.add_zero, ← chanBit]
  cases chanBit c o b <;> rfl

/-- The pin writes of a column, cell by address and channel by bit (20_memory.md R51, 40_scan_engine.md R97 to R99). -/
theorem columnWrites_eq (s : State) (b : BitVec 2) (r : BitVec 3) (col : Nat) :
    columnWrites s b r col =
      [(.r1, (s.mem.read (s.frontSel.toNat * 512 + (r.toNat * 32 + col))).getLsbD (12 + b.toNat)),
       (.g1, (s.mem.read (s.frontSel.toNat * 512 + (r.toNat * 32 + col))).getLsbD (7 + b.toNat)),
       (.b1, (s.mem.read (s.frontSel.toNat * 512 + (r.toNat * 32 + col))).getLsbD (1 + b.toNat)),
       (.r2, (s.mem.read (s.frontSel.toNat * 512 + ((r.toNat + 8) * 32 + col))).getLsbD (12 + b.toNat)),
       (.g2, (s.mem.read (s.frontSel.toNat * 512 + ((r.toNat + 8) * 32 + col))).getLsbD (7 + b.toNat)),
       (.b2, (s.mem.read (s.frontSel.toNat * 512 + ((r.toNat + 8) * 32 + col))).getLsbD (1 + b.toNat)),
       (.clk, false), (.clk, true)] := by
  simp only [columnWrites, chanBit_chOffR, chanBit_chOffG, chanBit_chOffB]
  rfl

/-- Settles O21: the events are those of the pin writes, whose layout the lemmas on rowoutWrites say. -/
theorem rowoutEventsInOrder : Obligations.RowoutEventsInOrder := by
  intro b r s
  refine ⟨rowout b r s, rfl, rowout_eq b r s, pinEvents (rowoutWrites s b r), rowout_trace b r s, ?_, ?_, ?_, ?_⟩
  · rw [pinEvents, List.length_map, rowoutWrites_length]
  · rw [pinEvents, ← List.map_take, rowoutWrites_take]
    rfl
  · intro col hcol
    rw [pinEvents, ← List.map_drop, ← List.map_take, rowoutWrites_column s b r col hcol, columnWrites_eq]
    rfl
  · rw [pinEvents, ← List.map_drop, rowoutWrites_drop]
    rfl

/-- Settles O22: columns 0 to 30 leave the row address, and the last column and the two writes after it set every other pin. -/
theorem rowoutLeavesTheLastColumnLevels : Obligations.RowoutLeavesTheLastColumnLevels := by
  intro b r s
  rw [rowout, pinWrites_pins, rowoutWrites_split, List.foldl_append, List.foldl_append, List.foldl_append, columnWrites_eq]
  obtain ⟨ha, hb, hc, -, -⟩ := columns_keep s b r (List.range 31)
    ([(.a, r.getLsbD 0), (.b, r.getLsbD 1), (.c, r.getLsbD 2), (.oe, true), (.lat, true)].foldl
      (fun q w => q.set w.1 w.2) s.pins)
  simp only [List.foldl_cons, List.foldl_nil, Pins.set] at ha hb hc ⊢
  rw [ha, hb, hc]

/-- The three channel bits of a cell in plane b (40_scan_engine.md R97, R98). -/
def channels (b : BitVec 2) (c : Color) : Bool × Bool × Bool := (chanBit c chOffR b, chanBit c chOffG b, chanBit c chOffB b)

/-- No channel bit of any plane is one of the headroom bits 0, 5, 6 and 11 (40_scan_engine.md R103). -/
theorem channels_and_mask (b : BitVec 2) (c : Color) : channels b (c &&& 0xF79E#16) = channels b c := by
  have hmask : ∀ b : BitVec 2, channels b 0xF79E#16 = (true, true, true) := by decide
  have hand : channels b (c &&& 0xF79E#16) =
      ((channels b c).1 && (channels b 0xF79E#16).1, (channels b c).2.1 && (channels b 0xF79E#16).2.1,
        (channels b c).2.2 && (channels b 0xF79E#16).2.2) := by
    simp only [channels, chanBit, BitVec.getLsbD_and]
  simp [hand, hmask]

/-- ROWOUT reads of the front store the channel bits of its cells alone (40_scan_engine.md R97, R102). -/
theorem rowoutWrites_congr_channels (s : State) (m : Memory) (b : BitVec 2) (r : BitVec 3)
    (h : ∀ j, j < 512 → channels b (m.read (pixAddr s.frontSel j)) = channels b (pixRead s.frontSel j s)) :
    rowoutWrites { s with mem := m } b r = rowoutWrites s b r := by
  have hcell (col row : Nat) (hcol : col < 32) (hrow : row < 16) :
      channels b (frontCell col row { s with mem := m }) = channels b (frontCell col row s) :=
    h _ (cellIndex_lt col row hcol hrow)
  have hcol (col : Nat) (hc : col ∈ List.range 32) : columnWrites { s with mem := m } b r col = columnWrites s b r col := by
    have hup := hcell col r.toNat (List.mem_range.1 hc) (by omega)
    have hlo := hcell col (r.toNat + 8) (List.mem_range.1 hc) (by omega)
    simp only [channels, Prod.mk.injEq] at hup hlo
    simp only [columnWrites, hup, hlo]
  rw [rowoutWrites, rowoutWrites, List.flatMap_congr hcol]

/-- Settles O24: under the mask the cells agree, and the mask keeps every channel bit. -/
theorem headroomBitsNeverReachAPin : Obligations.HeadroomBitsNeverReachAPin := by
  intro b r s m h
  have hw : rowoutWrites { s with mem := m } b r = rowoutWrites s b r :=
    rowoutWrites_congr_channels s m b r fun j hj => by
      rw [← channels_and_mask, h j hj, channels_and_mask]
  constructor
  · rw [rowout_trace, rowout_trace, hw]
  · rw [rowout, rowout, pinWrites_pins, pinWrites_pins, hw]

end Sys2Proof.Machine
end

section
/-! PROOFS. ADVANCE, SWAP and a whole TICK (40_scan_engine.md R91, R102 to R118). -/

namespace Sys2Proof.Machine

theorem advance_framePos (s : State) : framePos (advance s) = (framePos s + 1) % 32 := by
  obtain ⟨b, r, hc, h⟩ := advance_spec s
  rw [h]
  split <;> simpa using hc

/-- Settles O26: the next place of place 31 is 0, which is cursor (0,0). -/
theorem advanceStepsTheCursor : Obligations.AdvanceStepsTheCursor := by
  intro s
  obtain ⟨b, r, hc, h⟩ := advance_spec s
  refine ⟨advance_framePos s, fun hw => ?_, fun hw => ?_⟩
  · obtain rfl : b = 0#2 := by bv_omega
    obtain rfl : r = 0#3 := by bv_omega
    rw [h, if_pos hw]
    rfl
  · rw [h, if_neg hw]
    rfl

@[simp] theorem framePos_expire (s : State) : framePos (expire s) = framePos s := by simp [framePos]

/-- Each TICK of a frame is one place on, whatever expires between them (40_scan_engine.md R105). -/
theorem framePos_iterate_tick (s : State) (k : Nat) :
    framePos ((fun u => tickBody (expire u))^[k] s) = (framePos s + k) % 32 := by
  induction k with
  | zero => exact (Nat.mod_eq_of_lt (by unfold framePos; omega)).symm
  | succ k ih =>
    rw [Function.iterate_succ_apply', tickBody_framePos, framePos_expire, ih]
    omega

/-- Settles O27, by induction on the number of TICKs. -/
theorem frameVisitsEveryCursorInOrder : Obligations.FrameVisitsEveryCursorInOrder := by
  intro s k hb hr
  have h0 : framePos s = 0 := by simp [framePos, hb, hr]
  exact (framePos_eq_mod_iff _ k).1 (by rw [framePos_iterate_tick, h0, Nat.zero_add])

/-- The other store is the complement of the one-bit selector (10_state.md R24). -/
theorem other_store_eq_not (f : BitVec 1) : 1#1 - f = ~~~f := by
  revert f
  decide

theorem swap_read_oldFront (s : State) (hs : Memory.wf s.mem) (j : Nat) (hj : j < 512) :
    pixRead s.frontSel j (swap s) = 0#16 := by
  rw [pixRead, swap_read s hs]
  exact if_pos (by simp only [pixAddr]; omega)

theorem swap_read_backStore (s : State) (hs : Memory.wf s.mem) (j : Nat) (hj : j < 512) :
    pixRead (backStore s) j (swap s) = pixRead (backStore s) j s := by
  have hlt := s.frontSel.isLt
  rw [pixRead, swap_read s hs]
  exact if_neg (by simp only [pixAddr, backStore_toNat]; omega)

/-- Settles O28: the zero-fill covers the old front and no cell of the other store. -/
theorem swapBlanksTheOldFront : Obligations.SwapBlanksTheOldFront := by
  intro s hs
  refine ⟨by rw [swap_frontSel, other_store_eq_not], swap_pending s, by rw [swap_trace, swap_frontSel], swap_mem_wf s hs,
    fun j hj => ⟨swap_read_oldFront s hs j hj, ?_⟩, ?_⟩
  · rw [swap_frontSel]
    exact swap_read_backStore s hs j hj
  · rw [swap_frontSel, swap_trace]
    exact swap_eq s

/-- Pin writes read no cell. -/
theorem pinWrites_withMem (ws : List (Pin × Bool)) (s : State) (m : Memory) :
    pinWrites ws { s with mem := m } = { pinWrites ws s with mem := m } := by
  induction ws generalizing s with
  | nil => rfl
  | cons w ws ih => exact ih (pinWrite w.1 w.2 s)

/-- ADVANCE reads no cell but to fill the pixel space (40_scan_engine.md R104, R110). -/
theorem advance_withMem (s : State) (m : Memory) :
    advance { s with mem := m } = { advance s with mem := (advance { s with mem := m }).mem } := by
  unfold advance
  split
  · rfl
  · split
    · rfl
    · split
      · rw [swap_eq { s with bitIdx := 0#2, rowIdx := 0#3 }]
        exact swap_eq _
      · rfl

/-- Front stores with the same cells make one TICK, but for the pixel space (40_scan_engine.md R102, R118). -/
theorem tickBody_withMem (s : State) (m : Memory)
    (h : ∀ j, j < 512 → m.read (pixAddr s.frontSel j) = pixRead s.frontSel j s) :
    tickBody { s with mem := m } = { tickBody s with mem := (tickBody { s with mem := m }).mem } := by
  have hw : rowoutWrites { s with mem := m } s.bitIdx s.rowIdx = rowoutWrites s s.bitIdx s.rowIdx :=
    rowoutWrites_congr_channels s m _ _ fun j hj => by rw [h j hj]
  have hrow : rowShown { s with mem := m } = { rowShown s with mem := m } := by
    rw [rowShown_eq, rowShown_eq, hw]
    exact pinWrites_withMem _ (timerLoad (periodTicks s.bitIdx) { s with tickPending := false }) m
  rw [tickBody_eq, hrow]
  exact advance_withMem _ m

/-- Settles O25: a TICK that is due reads the front store alone; one that is not due changes nothing. -/
theorem tickNeverReadsTheBackStore : Obligations.TickNeverReadsTheBackStore := by
  intro s m h
  refine ⟨tick s, tick { s with mem := m }, rfl, rfl, ?_⟩
  unfold tick
  split
  · exact tickBody_withMem s m h
  · rfl

@[simp] theorem tickBody_tickPending (s : State) : (tickBody s).tickPending = false := by simp [tickBody]

theorem tickBody_pins (s : State) : (tickBody s).pins = (rowout s.bitIdx s.rowIdx s).pins := by
  rw [tickBody_eq, advance_pins, rowShown_pins, pinsAfter_pinEvents, rowout, pinWrites_pins]

/-- The events of a TICK, in order: the period, the row-pair, and the Swap of the wrap (40_scan_engine.md R91, R104). -/
theorem tickBody_trace (s : State) :
    (tickBody s).trace = s.trace ++ [.timerLoad (periodTicks s.bitIdx)] ++ pinEvents (rowoutWrites s s.bitIdx s.rowIdx) ++
      (if framePos s = 31 ∧ s.pending = true then [.swap (1#1 - s.frontSel)] else []) := by
  obtain ⟨b, r, -, h⟩ := tickBody_spec s
  rw [h]
  split <;> simp

/-- The TICK of (3,7) with a swap pending makes of the stores, the roles and the request what SWAP makes
(40_scan_engine.md R104, R110). -/
theorem tickBody_at_wrap (s : State) (hw : framePos s = 31 ∧ s.pending = true) :
    (tickBody s).mem = (swap s).mem ∧ (tickBody s).frontSel = 1#1 - s.frontSel ∧ (tickBody s).pending = false := by
  obtain ⟨b, r, -, h⟩ := tickBody_spec s
  rw [h, if_pos hw]
  exact ⟨swap_mem_congr _ s (by simp [withCursor, rowShown]) (by simp), by simp, by simp⟩

/-- Every other TICK leaves the stores, the roles and the request (40_scan_engine.md R104). -/
theorem tickBody_off_wrap (s : State) (hw : ¬(framePos s = 31 ∧ s.pending = true)) :
    (tickBody s).mem = s.mem ∧ (tickBody s).frontSel = s.frontSel ∧ (tickBody s).pending = s.pending := by
  obtain ⟨b, r, -, h⟩ := tickBody_spec s
  rw [h, if_neg hw]
  exact ⟨by simp [withCursor, rowShown], by simp, by simp⟩

theorem pin_of_mem_pinEvents {ws : List (Pin × Bool)} {e : Event} (h : e ∈ pinEvents ws) : ∃ p v, e = .pin p v := by
  obtain ⟨w, -, rfl⟩ := List.mem_map.1 h
  exact ⟨w.1, w.2, rfl⟩

/-- Settles O20: the step is the TICK of the state with the move spent, whose fields are those of a TICK of s. -/
theorem tickOutputsOneRowPair : Obligations.TickOutputsOneRowPair := by
  intro s ms hms
  have hstep : step s = .next (tick { s with schedule := ms }) := step_of_schedule s .tick ms hms
  have hw : rowoutWrites { s with schedule := ms } s.bitIdx s.rowIdx = rowoutWrites s s.bitIdx s.rowIdx :=
    rowoutWrites_congr _ s _ _ rfl rfl
  refine ⟨fun hp => ?_, fun hp => ⟨tickBody { s with schedule := ms }, ?_, tickBody_tickPending _, tickBody_tmrRc _,
    tickBody_tmrIen _, tickBody_framePos _, ?_, tickBody_tmrEn _, tickBody_tmrCnt _, tickBody_tmrPre _,
    tickBody_tickOverrun _, tickBody_cmdFault _, tickBody_faultOp _, tickBody_responses _, tickBody_rspPort _,
    tickBody_portHead _, tickBody_hostQueue _, tickBody_schedule _, tickBody_choices _, ?_, fun h => ?_,
    tickBody_off_wrap { s with schedule := ms }⟩⟩
  · rw [hstep, tick, if_neg (by simp [hp])]
  · rw [hstep, tick, if_pos hp]
  · refine ⟨pinEvents (rowoutWrites s s.bitIdx s.rowIdx), ?_, fun e => pin_of_mem_pinEvents, rowout_trace _ _ s, ?_⟩
    · rw [pinEvents, List.length_map, rowoutWrites_length]
    · rw [tickBody_trace, hw]
      rfl
  · rw [tickBody_pins, rowout, rowout, pinWrites_pins, pinWrites_pins, hw]
  · obtain ⟨hmem, hfront, hpend⟩ := tickBody_at_wrap { s with schedule := ms } h
    exact ⟨hmem.trans (swap_mem_congr _ s rfl rfl), hfront, hpend⟩

end Sys2Proof.Machine
end

section
/-! PROOFS. What each command answers, said once as an equation, and the words that decode to it (41_host_commands.md R120 to
R135). -/

namespace Sys2Proof.Machine

theorem waitsForSwap_iff (i : Instr) : waitsForSwap i = true ↔ (∃ x y c, i = .setPixel x y c) ∨ i = .refresh := by
  cases i <;> simp [waitsForSwap]

theorem held_iff (i : Instr) (s : State) :
    held i s = true ↔ ((∃ x y c, i = .setPixel x y c) ∨ i = .refresh) ∧ s.pending = true := by
  rw [held, Bool.and_eq_true, waitsForSwap_iff]

theorem exec_setPixel_pending (x y : Int) (c : Color) (s : State) (hp : s.pending = true) :
    exec (.setPixel x y c) s = .next s := by
  simp [exec, execSetPixel, hp]

theorem exec_setPixel_outOfRange (x y : Int) (c : Color) (s : State) (hr : inRange x y = false) :
    exec (.setPixel x y c) s = .next s := by
  simp [exec, execSetPixel, hr]

/-- GETPIXEL answers one response in any case (41_host_commands.md R127, R128). -/
theorem exec_getPixel (x y : Int) (s : State) :
    exec (.getPixel x y) s = .next (respond (if inRange x y then (backCell x y s).setWidth 32 else 0#32) s) := by
  cases hr : inRange x y <;> simp [exec, execGetPixel, hr]

/-- After REFRESH the request stands, whether it stood before or not (41_host_commands.md R129, R130). -/
theorem exec_refresh (s : State) : exec .refresh s = .next { s with pending := true } := by
  cases hp : s.pending
  · simp [exec, execRefresh, hp]
  · simp only [exec, execRefresh, hp, if_true]
    rw [← hp]

theorem exec_start_stopped (s : State) (hen : s.tmrEn = false) :
    exec .start s = .next (timerStart (periodTicks 0#2) s) := by
  simp [exec, execStart, hen]

theorem exec_start_running (s : State) (hen : s.tmrEn = true) : exec .start s = .next s := by
  simp [exec, execStart, hen]

/-- Settles O8: OP 000 is the row of NOP, whose arm answers the state it is given. -/
theorem nopLeavesTheStateUnchanged : Obligations.NopLeavesTheStateUnchanged := by
  have hdec : ∀ w : Word, w &&& 0xE0000000#32 = 0x00000000#32 → decode w = .nop :=
    fun w h => (decode_eq_iff w .nop).2 ⟨opField_of_masked h rfl, trivial⟩
  exact ⟨hdec, hdec 0#32 rfl, fun s => ⟨rfl, rfl⟩⟩

/-- Settles O13, by whether the timer runs. -/
theorem startStartsAStoppedTimer : Obligations.StartStartsAStoppedTimer :=
  ⟨fun w h => (decode_eq_iff w .start).2 ⟨opField_of_masked h rfl, trivial⟩, fun _ => rfl, exec_start_stopped,
    exec_start_running⟩

/-! The host's step at an empty port and at a held head (41_host_commands.md R120). -/

theorem hostStep_of_empty {s : State} (hw : s.portHead = none) : hostStep s = .next s := by
  simp [hostStep, hw]

theorem hostStep_of_held {s : State} {w : Word} (hw : s.portHead = some w) (hh : held (decode w) s = true) :
    hostStep s = .next s := by
  simp [hostStep, hw, hh]

/-- Settles O16: the step is the host's, with the move spent, and goes by what stands at the port head. -/
theorem hostStepExecutesTheDecodedWord : Obligations.HostStepExecutesTheDecodedWord := by
  refine ⟨held_iff, fun s ms hms => ?_⟩
  rw [step_of_schedule s .host ms hms]
  refine ⟨fun hw => hostStep_of_empty hw, fun w hw => ⟨fun hh => hostStep_of_held hw hh, fun hh t hx => ?_⟩⟩
  exact (hostStep_of_not_held (s := { s with schedule := ms }) hw hh).trans (congrArg consumeHead hx)

/-! The STATUS word (10_state.md R38). -/

theorem statusWord_flags (s : State) :
    (statusWord s).getLsbD 0 = s.pending ∧ (statusWord s).getLsbD 1 = s.tmrEn ∧ (statusWord s).getLsbD 2 = s.tmrIen ∧
    (statusWord s).getLsbD 3 = s.cmdFault ∧ (statusWord s).getLsbD 7 = s.tickOverrun ∧
    (statusWord s).getLsbD 14 = s.tickPending := by
  simp only [statusWord, BitVec.getLsbD_setWidth, BitVec.getLsbD_append]
  simp

/-- A register of more bits is the lowest part of what is left above the fields below it. -/
theorem statusWord_fields (s : State) :
    (statusWord s).extractLsb' 4 3 = s.faultOp ∧ (statusWord s).extractLsb' 8 2 = s.bitIdx ∧
    (statusWord s).extractLsb' 10 3 = s.rowIdx ∧ (statusWord s).extractLsb' 13 1 = s.frontSel := by
  refine ⟨?_, ?_, ?_, ?_⟩
  all_goals
    rw [statusWord, BitVec.extractLsb'_setWidth_of_le (by decide)]
    repeat rw [BitVec.extractLsb'_append_eq_of_le (by decide)]
    exact BitVec.extractLsb'_append_eq_right

theorem statusWord_highBits (s : State) : (statusWord s).extractLsb' 15 17 = 0#17 := by
  rw [statusWord, BitVec.setWidth_eq_append (by decide)]
  exact BitVec.extractLsb'_append_eq_left

/-- Settles O14, flag by flag and field by field. -/
theorem statusAnswersTheFlagWord : Obligations.StatusAnswersTheFlagWord := by
  refine ⟨fun w h => (decode_eq_iff w .status).2 ⟨opField_of_masked h rfl, trivial⟩, fun s => ⟨rfl, statusWord s, rfl, ?_⟩⟩
  obtain ⟨hpending, hen, hien, hfault, hoverrun, htick⟩ := statusWord_flags s
  obtain ⟨hop, hbit, hrow, hfront⟩ := statusWord_fields s
  exact ⟨hpending, hen, hien, hfault, hop, hoverrun, hbit, hrow, hfront, htick, statusWord_highBits s⟩

/-! A request while the timer is stopped (41_host_commands.md R131). -/

theorem tickPending_of_tickTaken {m : Move} {s : State} (h : tickTaken m s = true) : s.tickPending = true := by
  cases m with
  | tick | tickOnClk | boundary => exact h
  | send | present | host | expire | clk | reset => nomatch h

theorem expire_stopped (s : State) (hen : s.tmrEn = false) : expire s = s := by
  simp [expire, hen]

theorem clockEdge_stopped (rc : Word) (s : State) (hen : s.tmrEn = false) : clockEdge rc s = { s with rspPort := none } := by
  simp [clockEdge, prescale, hen]

/-- With the timer stopped nothing makes a tick due (60_exceptions.md R160). -/
theorem takeMove_tickPending_stopped {m : Move} {s t : State} (h : takeMove m s = .next t) (hm : m ≠ .reset)
    (hen : s.tmrEn = false) (hp : s.tickPending = false) : t.tickPending = false := by
  obtain ⟨-, rfl⟩ | ⟨-, hh⟩ | ⟨-, rfl⟩ | ⟨-, rfl⟩ | ⟨-, hp', -⟩ | ⟨-, hp', -⟩ | ⟨-, -, rfl⟩ | ⟨hr, -⟩ | ⟨w, -, rfl⟩ :=
    takeMove_cases m s t h
  · simpa using hp
  · rwa [hostStep_tickPending s t hh]
  · rwa [expire_stopped s hen]
  · rwa [clockEdge_stopped _ s hen]
  · simp [hp] at hp'
  · simp [hp] at hp'
  · exact hp
  · exact absurd hr hm
  · exact hp

/-- Settles O12. A request ends, and the roles change, only in a TICK, and none comes due where the timer is stopped. -/
theorem refreshSetsPending : Obligations.RefreshSetsPending := by
  refine ⟨fun w h => (decode_eq_iff w .refresh).2 ⟨opField_of_masked h rfl, trivial⟩, fun s hp => ⟨hp, exec_refresh s⟩,
    fun s hp => ⟨hp, ?_⟩, fun s t hp hen htp hm h => ?_⟩
  · rw [exec_refresh, ← hp]
  · obtain ⟨-, hk⟩ | ⟨ht, -⟩ | ⟨hr, -⟩ := step_engine_cases s t h
    · exact ⟨hk.pending hp, hk.frontSel, takeMove_tickPending_stopped h hm (by simpa using hen) (by simpa using htp)⟩
    · simp [tickPending_of_tickTaken ht] at htp
    · exact absurd hr hm

end Sys2Proof.Machine
end

section
/-! PROOFS. The pixel commands and the two stores: what SETPIXEL writes, what GETPIXEL reads, and that no command reaches the
front store (41_host_commands.md R121 to R128, R137). -/

namespace Sys2Proof.Machine

theorem inRange_false_iff (x y : Int) : inRange x y = false ↔ ¬(0 ≤ x ∧ x < 32 ∧ 0 ≤ y ∧ y < 16) := by
  rw [← inRange_iff, Bool.not_eq_true]

/-- Writing a back cell twice is writing it once: canonical memories that read alike are the same. -/
theorem writeBackCell_twice (x y : Int) (c : Color) (s : State) (hs : Memory.wf s.mem) (hr : inRange x y = true) :
    writeBackCell x y c (writeBackCell x y c s) = writeBackCell x y c s := by
  have hwf := writeBackCell_mem_wf x y c s hs hr
  have hmem : (writeBackCell x y c (writeBackCell x y c s)).mem = (writeBackCell x y c s).mem := by
    refine Memory.ext_of_wf _ _ (writeBackCell_mem_wf x y c _ hwf hr) hwf fun a => ?_
    rw [writeBackCell_read _ _ _ _ hwf, writeBackCell_read _ _ _ _ hs, writeBackCell_frontSel]
    split <;> rfl
  exact congrArg (fun m : Memory => { writeBackCell x y c s with mem := m }) hmem

/-- Settles O9: held, out of range, or the write of one back cell. -/
theorem setPixelWritesOneBackCell : Obligations.SetPixelWritesOneBackCell := by
  refine ⟨fun w h => (decode_eq_iff w (.setPixel _ _ _)).2 ⟨opField_of_masked h rfl, rfl, rfl, rfl⟩,
    fun x y c s hp => ⟨hp, exec_setPixel_pending x y c s hp⟩,
    fun x y c s hp hr => ⟨hp, exec_setPixel_outOfRange x y c s ((inRange_false_iff x y).2 hr)⟩,
    fun x y c s hs hp hr => ⟨hp, writeBackCell x y c s, ?_⟩⟩
  rw [← inRange_iff] at hr
  have hagain := exec_setPixel_inRange x y c (writeBackCell x y c s) hp hr
  rw [writeBackCell_twice x y c s hs hr] at hagain
  exact ⟨exec_setPixel_inRange x y c s hp hr, rfl, writeBackCell_mem_wf x y c s hs hr, hagain, writeBackCell_read x y c s hs⟩

theorem backCell_eq_read (x y : Int) (s : State) :
    backCell x y s = s.mem.read ((1 - s.frontSel.toNat) * 512 + (y.toNat * 32 + x.toNat)) := by
  rw [backCell, pixRead, pixAddr, backStore_toNat, cellIndex]

/-- SWAP gives the back role to the store it blanks (40_scan_engine.md R110). -/
theorem backStore_swap (s : State) : backStore (swap s) = s.frontSel := by
  rw [backStore, swap_frontSel, other_store_eq_not, other_store_eq_not, BitVec.not_not]

theorem backCell_swap (x y : Int) (s : State) (hs : Memory.wf s.mem) (hr : inRange x y = true) :
    backCell x y (swap s) = 0#16 := by
  rw [backCell, backStore_swap]
  exact swap_read_oldFront s hs _ (cellIndex_lt_of_inRange x y hr)

/-- Settles O10, by the one response of GETPIXEL. -/
theorem getPixelAnswersTheBackCell : Obligations.GetPixelAnswersTheBackCell := by
  refine ⟨fun w h => (decode_eq_iff w (.getPixel _ _)).2 ⟨opField_of_masked h rfl, rfl, rfl⟩, fun _ _ _ => rfl,
    fun x y s hr => ⟨(backCell x y s).setWidth 32, ?_, ?_⟩, fun x y s hr => ?_, fun x y s t hs h => ?_⟩
  · rw [← backCell_eq_read, BitVec.toNat_setWidth_of_le (by decide)]
  · rw [exec_getPixel, if_pos ((inRange_iff x y).2 hr)]
    rfl
  · rw [exec_getPixel, (inRange_false_iff x y).2 hr]
    rfl
  · rw [exec_getPixel] at h
    obtain rfl := Host.Outcome.next.inj h
    split
    next hr => rw [backCell_swap x y s hs hr]; simp
    next => simp

/-- Among the commands, SETPIXEL alone writes a cell, and one back cell (41_host_commands.md R121, R124). -/
theorem exec_mem_cases (i : Instr) (s t : State) (h : exec i s = .next t) :
    t.mem = s.mem ∨ ∃ x y c, i = .setPixel x y c ∧ inRange x y = true ∧ t.mem = (writeBackCell x y c s).mem := by
  obtain rfl | ⟨x, y, c, hi, -, hr, rfl⟩ | ⟨v, rfl⟩ | ⟨-, -, rfl⟩ | ⟨-, -, rfl⟩ | ⟨op, -, rfl⟩ := exec_cases i s t h
  · exact .inl rfl
  · exact .inr ⟨x, y, c, hi, hr, rfl⟩
  · exact .inl rfl
  · exact .inl rfl
  · exact .inl rfl
  · exact .inl rfl

/-- A SETPIXEL of other in-range coordinates leaves a back cell. -/
theorem backCell_writeBackCell_ne {x y x' y' : Int} (c : Color) (s : State) (hr : inRange x y = true)
    (hr' : inRange x' y' = true) (hne : ¬(x = x' ∧ y = y')) : backCell x y (writeBackCell x' y' c s) = backCell x y s := by
  rw [inRange_iff] at hr hr'
  exact Memory.read_write_ne _ _ _ _ (by simp only [pixAddr, cellIndex]; omega)

/-- A command that is no SETPIXEL of the cell leaves a back cell (41_host_commands.md R137). -/
theorem exec_keeps_backCell {i : Instr} {x y : Int} {s t : State} (h : exec i s = .next t) (hr : inRange x y = true)
    (hi : ∀ c, i ≠ .setPixel x y c) : backCell x y t = backCell x y s := by
  have hf := (exec_engineKept i s t h).frontSel
  obtain hm | ⟨x', y', c, rfl, hr', hm⟩ := exec_mem_cases i s t h
  · rw [backCell_eq_read, backCell_eq_read, hm, hf]
  · have hne : ¬(x = x' ∧ y = y') := by
      rintro ⟨rfl, rfl⟩
      exact hi c rfl
    rw [← backCell_writeBackCell_ne c s hr hr' hne, backCell_eq_read, backCell_eq_read, hm, hf, writeBackCell_frontSel]

/-- So does a list of such commands. -/
theorem execAll_keeps_backCell (is : List Instr) {x y : Int} (s : State) (hr : inRange x y = true)
    (his : ∀ c, Instr.setPixel x y c ∉ is) : ∃ t, execAll is s = .next t ∧ backCell x y t = backCell x y s := by
  induction is generalizing s with
  | nil => exact ⟨s, rfl, rfl⟩
  | cons i is ih =>
    obtain ⟨t, ht⟩ := exec_next i s
    obtain ⟨u, hu, hcell⟩ := ih t fun c hc => his c (List.mem_cons_of_mem i hc)
    refine ⟨u, by simpa only [execAll, ht] using hu, hcell.trans (exec_keeps_backCell ht hr fun c hc => ?_)⟩
    exact his c (hc ▸ List.mem_cons_self)

theorem backCell_writeBackCell_self (x y : Int) (c : Color) (s : State) (hs : Memory.wf s.mem) :
    backCell x y (writeBackCell x y c s) = c := by
  rw [backCell_eq_read, writeBackCell_read x y c s hs, writeBackCell_frontSel, if_pos rfl]

/-- Settles O11: SETPIXEL leaves the color in the back cell, the commands between keep it there, and GETPIXEL reads it. -/
theorem setThenGetAnswersTheColor : Obligations.SetThenGetAnswersTheColor := by
  intro x y c is s hs hp hr his
  rw [← inRange_iff] at hr
  obtain ⟨u, hu, hcell⟩ := execAll_keeps_backCell is (writeBackCell x y c s) hr his
  rw [backCell_writeBackCell_self x y c s hs] at hcell
  exact ⟨_, u, _, exec_setPixel_inRange x y c s hp hr, hu, exec_getPixel x y u, by rw [if_pos hr, hcell]; rfl⟩

/-- The write of a back cell leaves the front store (20_memory.md R52). -/
theorem pixRead_front_writeBackCell (x y : Int) (c : Color) (s : State) (hr : inRange x y = true) (j : Nat) (hj : j < 512) :
    pixRead s.frontSel j (writeBackCell x y c s) = pixRead s.frontSel j s := by
  refine Memory.read_write_ne _ _ _ _ fun h => backStore_ne s ?_
  exact (pixAddr_inj _ _ _ _ hj (cellIndex_lt_of_inRange x y hr) h).1.symm

theorem exec_keeps_frontStore {i : Instr} {s t : State} (h : exec i s = .next t) (j : Nat) (hj : j < 512) :
    pixRead s.frontSel j t = pixRead s.frontSel j s := by
  obtain hm | ⟨x, y, c, -, hr, hm⟩ := exec_mem_cases i s t h
  · rw [pixRead, hm, pixRead]
  · rw [pixRead, hm]
    exact pixRead_front_writeBackCell x y c s hr j hj

/-- No command touches the tick flags (41_host_commands.md R121). -/
theorem exec_keeps_tickFlags {i : Instr} {s t : State} (h : exec i s = .next t) :
    t.tickPending = s.tickPending ∧ t.tickOverrun = s.tickOverrun := by
  obtain rfl | ⟨x, y, c, -, -, -, rfl⟩ | ⟨v, rfl⟩ | ⟨-, -, rfl⟩ | ⟨-, -, rfl⟩ | ⟨op, -, rfl⟩ := exec_cases i s t h <;>
    exact ⟨rfl, rfl⟩

/-- START alone touches the timer registers and the trace (41_host_commands.md R121, R133). -/
theorem exec_keeps_timer {i : Instr} {s t : State} (h : exec i s = .next t) (hi : i ≠ .start) :
    t.tmrEn = s.tmrEn ∧ t.tmrIen = s.tmrIen ∧ t.tmrCnt = s.tmrCnt ∧ t.tmrPre = s.tmrPre ∧ t.tmrRc = s.tmrRc ∧
      t.trace = s.trace := by
  obtain rfl | ⟨x, y, c, -, -, -, rfl⟩ | ⟨v, rfl⟩ | ⟨-, -, rfl⟩ | ⟨hstart, -⟩ | ⟨op, -, rfl⟩ := exec_cases i s t h
  case inr.inr.inr.inr.inl => exact absurd hstart hi
  all_goals exact ⟨rfl, rfl, rfl, rfl, rfl, rfl⟩

/-- Settles O18, from what every command leaves. -/
theorem commandsLeaveTheEngineAlone : Obligations.CommandsLeaveTheEngineAlone := by
  intro i s t h
  have hk := exec_engineKept i s t h
  obtain ⟨hpending, hoverrun⟩ := exec_keeps_tickFlags h
  exact ⟨hk.bitIdx, hk.rowIdx, hk.frontSel, hk.pins, hpending, hoverrun, exec_keeps_frontStore h, exec_keeps_timer h⟩

/-! The same command on pixel spaces with the same back cells (10_state.md R39). -/

/-- The cells of store st are the same in both pixel spaces. -/
def SameStore (st : BitVec 1) (m m' : Memory) : Prop := ∀ j, j < 512 → m.read (pixAddr st j) = m'.read (pixAddr st j)

/-- A write of one cell to both keeps a store the same. -/
theorem SameStore.write {st : BitVec 1} {m m' : Memory} (h : SameStore st m m') (hm : Memory.wf m) (hm' : Memory.wf m')
    (a : Nat) (c : Color) : SameStore st (m.write a c) (m'.write a c) := by
  intro j hj
  rw [Memory.read_write m hm, Memory.read_write m' hm', h j hj]

theorem SameStore.backCell_eq {s : State} {m : Memory} (h : SameStore (backStore s) m s.mem) {x y : Int}
    (hr : inRange x y = true) : backCell x y { s with mem := m } = backCell x y s :=
  h _ (cellIndex_lt_of_inRange x y hr)

/-- A SETPIXEL writes the same cell, or none, of both (41_host_commands.md R124). -/
theorem exec_setPixel_withMem {x y : Int} {c : Color} {s t : State} {m : Memory} (hs : Memory.wf s.mem) (hm : Memory.wf m)
    (hb : SameStore (backStore s) m s.mem) (h : exec (.setPixel x y c) s = .next t) :
    ∃ m', exec (.setPixel x y c) { s with mem := m } = .next { t with mem := m' } ∧ SameStore (backStore s) m' t.mem := by
  by_cases hp : s.pending = true
  · rw [exec_setPixel_pending x y c s hp] at h
    obtain rfl := Host.Outcome.next.inj h
    exact ⟨m, exec_setPixel_pending x y c _ hp, hb⟩
  by_cases hr : inRange x y = true
  · rw [Bool.not_eq_true] at hp
    rw [exec_setPixel_inRange x y c s hp hr] at h
    obtain rfl := Host.Outcome.next.inj h
    exact ⟨_, exec_setPixel_inRange x y c { s with mem := m } hp hr, hb.write hm hs _ c⟩
  · rw [Bool.not_eq_true] at hr
    rw [exec_setPixel_outOfRange x y c s hr] at h
    obtain rfl := Host.Outcome.next.inj h
    exact ⟨m, exec_setPixel_outOfRange x y c _ hr, hb⟩

/-- Every other command makes the same of both, and leaves the pixel space that it is given. -/
theorem exec_withMem {i : Instr} {s t : State} {m : Memory} (hb : SameStore (backStore s) m s.mem)
    (hi : ∀ x y c, i ≠ .setPixel x y c) (h : exec i s = .next t) :
    exec i { s with mem := m } = .next { t with mem := m } := by
  cases i with
  | setPixel x y c => exact absurd rfl (hi x y c)
  | getPixel x y =>
    rw [exec_getPixel] at h ⊢
    obtain rfl := Host.Outcome.next.inj h
    split
    next hr => rw [hb.backCell_eq hr]; rfl
    next => rfl
  | refresh =>
    rw [exec_refresh] at h ⊢
    obtain rfl := Host.Outcome.next.inj h
    rfl
  | start =>
    by_cases hen : s.tmrEn = true
    · rw [exec_start_running s hen] at h
      obtain rfl := Host.Outcome.next.inj h
      exact exec_start_running _ hen
    · rw [Bool.not_eq_true] at hen
      rw [exec_start_stopped s hen] at h
      obtain rfl := Host.Outcome.next.inj h
      exact exec_start_stopped _ hen
  | nop | status | rsvd6 | rsvd7 =>
    obtain rfl := Host.Outcome.next.inj h
    rfl

/-- Settles O19: a SETPIXEL writes both pixel spaces alike, and the other commands write neither. -/
theorem commandsNeverReadTheFrontStore : Obligations.CommandsNeverReadTheFrontStore := by
  intro i s t m hs hm hb h
  by_cases hi : ∀ x y c, i ≠ .setPixel x y c
  · refine ⟨{ t with mem := m }, exec_withMem hb hi h, rfl, fun j hj => ?_⟩
    obtain hmem | ⟨x, y, c, rfl, -, -⟩ := exec_mem_cases i s t h
    · rw [pixRead, pixRead, hmem]
      exact hb j hj
    · exact absurd rfl (hi x y c)
  · push Not at hi
    obtain ⟨x, y, c, rfl⟩ := hi
    obtain ⟨m', hx, hsame⟩ := exec_setPixel_withMem hs hm hb h
    exact ⟨{ t with mem := m' }, hx, rfl, hsame⟩

end Sys2Proof.Machine
end

section
/-! PROOFS. The timer device: EXPIRE, TimerLoad, the counter, the prescaler, loads late and on the edge of a match, and the
periods (60_exceptions.md R152 to R164). -/

namespace Sys2Proof.Machine

/-! EXPIRE and TimerLoad (60_exceptions.md R157, R160). -/

theorem expire_masked (s : State) (hien : s.tmrIen = false) : expire s = s := by
  simp [expire, hien]

theorem expire_running (s : State) (hen : s.tmrEn = true) (hien : s.tmrIen = true) :
    expire s = { s with tickOverrun := s.tickOverrun || s.tickPending, tickPending := true } := by
  simp [expire, hen, hien]

@[simp] theorem tick_tickPending (s : State) : (tick s).tickPending = false := by
  cases hp : s.tickPending <;> simp [tick, hp]

theorem tick_of_not_due (s : State) (hp : s.tickPending = false) : tick s = s := by
  simp [tick, hp]

/-- Settles O32: with both flags on the latch is set, and the second of two EXPIREs finds it set. -/
theorem expireLatchesOneTick : Obligations.ExpireLatchesOneTick := by
  refine ⟨expire_stopped, fun s _ => expire_masked s, fun s hen hien =>
    ⟨expire_running s hen hien, ?_, tick_tickPending _, tick_of_not_due _ (tick_tickPending _)⟩⟩
  have hdue := expire_sets_tickPending s hen hien
  rw [expire_running (expire s) (by simpa using hen) (by simpa using hien)]
  simp [hdue]

/-- Settles O33: the fields that TimerLoad writes are these. -/
theorem timerLoadLeavesTheCount : Obligations.TimerLoadLeavesTheCount := fun _ _ => rfl

/-! The counter (60_exceptions.md R153). -/

theorem timerTick_match {rc : Word} {s : State} (h : rc.toNat ≤ s.tmrCnt.toNat + 1) :
    timerTick rc s = expire { s with tmrCnt := 0#32 } := if_pos h

theorem timerTick_below {rc : Word} {s : State} (h : s.tmrCnt.toNat + 1 < rc.toNat) :
    timerTick rc s = { s with tmrCnt := s.tmrCnt + 1#32 } := if_neg (by omega)

/-- Within an interval the count is the number of timer ticks since its start, and nothing else changes. -/
theorem iterate_timerTick {s : State} (hcnt : s.tmrCnt = 0#32) {k : Nat} (hk : k < s.tmrRc.toNat) :
    (timerTick s.tmrRc)^[k] s = { s with tmrCnt := BitVec.ofNat 32 k } := by
  induction k with
  | zero => rw [Function.iterate_zero_apply, ← hcnt]
  | succ k ih =>
    have hlt := s.tmrRc.isLt
    rw [Function.iterate_succ_apply', ih (by omega), timerTick_below (by simp only [BitVec.toNat_ofNat]; omega),
      BitVec.ofNat_add]

/-- The interval ends with an EXPIRE at count 0 again. -/
theorem iterate_timerTick_interval {s : State} (hcnt : s.tmrCnt = 0#32) (hrc : 1 ≤ s.tmrRc.toNat) :
    (timerTick s.tmrRc)^[s.tmrRc.toNat] s = expire s := by
  obtain ⟨n, hn⟩ := Nat.exists_eq_add_of_le' hrc
  have hlt := s.tmrRc.isLt
  rw [hn, Function.iterate_succ_apply', iterate_timerTick hcnt (by omega),
    timerTick_match (by simp only [BitVec.toNat_ofNat]; omega), ← hcnt]

/-- Settles O35: the states within the interval, and the EXPIRE that ends it. -/
theorem intervalLastsItsCompareValue : Obligations.IntervalLastsItsCompareValue := by
  refine ⟨fun s => ⟨timerTick_match, timerTick_below⟩, fun s hen hien hcnt hrc => ⟨fun k hk => ?_, ?_⟩⟩
  · have hlt := s.tmrRc.isLt
    rw [iterate_timerTick hcnt hk]
    exact ⟨rfl, by simp only [BitVec.toNat_ofNat]; omega⟩
  · rw [iterate_timerTick_interval hcnt hrc]
    exact ⟨expire_sets_tickPending s hen hien, by rw [expire_tmrCnt, hcnt]⟩

/-! The prescaler and the edges of clk (60_exceptions.md R152). -/

theorem prescale_stopped (rc : Word) (s : State) (hen : s.tmrEn = false) : prescale rc s = s := by
  simp [prescale, hen]

/-- Settles O34: a count below TIMER_DIV - 1 does not wrap the register. -/
theorem prescalerDividesTheClock : Obligations.PrescalerDividesTheClock := by
  refine fun rc s => ⟨prescale_stopped rc s, fun hen hpre => ?_⟩
  obtain ⟨hstop, -⟩ | ⟨-, hwrap, h⟩ | ⟨-, hlt, h⟩ := prescale_cases rc s hpre
  · exact absurd (hstop.symm.trans hen) (by decide)
  · rw [h, if_pos hwrap]
  · rw [h, if_neg hlt.ne]

theorem clockEdge_wrap (rc : Word) {s : State} (hen : s.tmrEn = true) (hpre : s.tmrPre + 1 = Config.timerDiv) :
    clockEdge rc s = timerTick rc { s with rspPort := none, tmrPre := 0 } :=
  ((prescalerDividesTheClock rc { s with rspPort := none }).2 hen hpre.le).trans (if_pos hpre)

theorem clockEdge_count (rc : Word) {s : State} (hen : s.tmrEn = true) (hpre : s.tmrPre + 1 < Config.timerDiv) :
    clockEdge rc s = { s with rspPort := none, tmrPre := s.tmrPre + 1 } :=
  ((prescalerDividesTheClock rc { s with rspPort := none }).2 hen (Nat.lt_of_succ_lt hpre)).trans (if_neg hpre.ne)

/-- An edge of clk, as the move of the clock takes it. -/
def edge (s : State) : State := clockEdge s.tmrRc s

/-- The timer runs, its prescaler has just restarted, and no response stands on the port. -/
structure AtTimerTick (s : State) : Prop where
  tmrEn : s.tmrEn = true
  tmrPre : s.tmrPre = 0
  rspPort : s.rspPort = none

theorem AtTimerTick.after_timerTick {s : State} (h : AtTimerTick s) (rc : Word) : AtTimerTick (timerTick rc s) :=
  ⟨by simpa using h.tmrEn, by simpa using h.tmrPre, by simpa using h.rspPort⟩

/-- Up to TIMER_DIV - 1 edges do no more than count. -/
theorem AtTimerTick.iterate_edge {s : State} (h : AtTimerTick s) {k : Nat} (hk : k < Config.timerDiv) :
    edge^[k] s = { s with tmrPre := k } := by
  induction k with
  | zero => rw [Function.iterate_zero_apply, ← h.tmrPre]
  | succ k ih =>
    rw [Function.iterate_succ_apply', ih (by omega), edge,
      clockEdge_count (s := { s with tmrPre := k }) _ h.tmrEn hk, ← h.rspPort]

/-- TIMER_DIV edges are one timer tick. -/
theorem AtTimerTick.iterate_edge_timerDiv {s : State} (h : AtTimerTick s) :
    edge^[(Config.timerDiv : Nat)] s = timerTick s.tmrRc s := by
  obtain ⟨d, hd⟩ := Nat.exists_eq_add_of_le' Config.timerDiv.pos
  rw [hd, Function.iterate_succ_apply', h.iterate_edge (by omega), edge,
    clockEdge_wrap (s := { s with tmrPre := d }) _ h.tmrEn hd.symm, ← h.rspPort, ← h.tmrPre]

/-- So q times as many edges are q timer ticks. -/
theorem AtTimerTick.iterate_edge_mul {s : State} (h : AtTimerTick s) (q : Nat) :
    edge^[q * Config.timerDiv] s = (timerTick s.tmrRc)^[q] s := by
  induction q generalizing s with
  | zero => rw [Nat.zero_mul]; rfl
  | succ q ih =>
    rw [Nat.succ_mul, Function.iterate_add_apply, h.iterate_edge_timerDiv, ih (h.after_timerTick _), timerTick_tmrRc,
      Function.iterate_succ_apply]

/-- No tick comes due within an interval. -/
theorem AtTimerTick.tickPending_within {s : State} (h : AtTimerTick s) (hcnt : s.tmrCnt = 0#32) {k : Nat}
    (hk : k < s.tmrRc.toNat * Config.timerDiv) : (edge^[k] s).tickPending = s.tickPending := by
  have hq : k / Config.timerDiv < s.tmrRc.toNat := (Nat.div_lt_iff_lt_mul Config.timerDiv.pos).2 hk
  have hs : AtTimerTick { s with tmrCnt := BitVec.ofNat 32 (k / Config.timerDiv) } := ⟨h.tmrEn, h.tmrPre, h.rspPort⟩
  rw [← Nat.mod_add_div' k Config.timerDiv, Function.iterate_add_apply, h.iterate_edge_mul, iterate_timerTick hcnt hq,
    hs.iterate_edge (Nat.mod_lt _ Config.timerDiv.pos)]

/-- The response cycle is over with the first edge, so that it does not matter whether a response stood. -/
theorem iterate_edge_rspPort (k : Nat) (s : State) :
    edge^[k] { s with rspPort := none } = { edge^[k] s with rspPort := none } := by
  cases k with
  | zero => rfl
  | succ k =>
    have hrsp : (edge^[k + 1] s).rspPort = none := by
      rw [Function.iterate_succ_apply', edge, clockEdge, prescale_rspPort]
    rw [← hrsp]
    rfl

/-- Settles O36: tmr_rc * TIMER_DIV edges are tmr_rc timer ticks, which are one interval. -/
theorem expiryComesAfterPeriodTimesDivEdges : Obligations.ExpiryComesAfterPeriodTimesDivEdges := by
  intro s hen hien hpre hcnt hrc hdue
  have hs : AtTimerTick { s with rspPort := none } := ⟨hen, hpre, rfl⟩
  have hend := (hs.iterate_edge_mul s.tmrRc.toNat).trans (iterate_timerTick_interval hcnt hrc)
  rw [iterate_edge_rspPort] at hend
  refine ⟨fun k hk => ?_, (congrArg State.tickPending hend).trans (expire_sets_tickPending _ hen hien),
    (congrArg State.tmrCnt hend).trans ((expire_tmrCnt _).trans hcnt),
    (congrArg State.tmrPre hend).trans ((expire_tmrPre _).trans hpre)⟩
  have hin := hs.tickPending_within hcnt hk
  rw [iterate_edge_rspPort] at hin
  exact hin.trans hdue

/-! Loads late and on the edge of a match (60_exceptions.md R158, R164). -/

/-- The edge of a due TICK compares with the tmr_rc from before its TimerLoad. -/
theorem tickOnClk_wrap {s : State} (hen : s.tmrEn = true) (hp : s.tickPending = true)
    (hpre : s.tmrPre + 1 = Config.timerDiv) :
    tickOnClk s = timerTick s.tmrRc { tickBody s with rspPort := none, tmrPre := 0 } := by
  rw [tickOnClk, if_pos hp, clockEdge_wrap _ (by simpa using hen) (by simpa using hpre)]

/-- Settles O37: a late load is a match, and the edge of a TICK is a match of the old compare value or counts. -/
theorem lateAndSameEdgeLoads : Obligations.LateAndSameEdgeLoads := by
  refine ⟨fun n s hen hn => ?_, fun s hen hp hpre hrc => ?_, fun s hen hp hpre hrc => ?_⟩
  · rw [timerLoad_tmrRc, timerTick_match (s := timerLoad n s) hn]
    exact ⟨expire_sets_tickPending _ hen rfl, expire_tmrCnt _⟩
  · rw [tickOnClk_wrap hen hp hpre, timerTick_match (by simpa using hrc),
      expire_running _ (by simpa using hen) (by simp)]
    simp
  · rw [tickOnClk_wrap hen hp hpre, timerTick_below (by simpa using hrc)]
    simp

/-! The periods (60_exceptions.md R155). -/

/-- Settles O38: the quotient is the integer whose multiple lies next below, and the clamps are min and max. -/
theorem quantizeRoundsToNearest : Obligations.QuantizeRoundsToNearest := by
  refine ⟨fun clkHz div us q hdiv h1 hmax hq => ?_, fun clkHz div us hdiv => ⟨fun hlow => ?_, fun htop => ?_⟩,
    fun b => ⟨periodTicks_toNat b, periodTicks_pos b⟩⟩
  · rw [quantizeWith, Nat.div_eq_of_lt_le hq.1 hq.2]
    omega
  · rw [quantizeWith, Nat.div_eq_of_lt (by omega)]
    rfl
  · have hquot := (Nat.le_div_iff_mul_le (by omega)).2 htop
    rw [quantizeWith]
    omega

end Sys2Proof.Machine
end

section
/-! PROOFS. The boundary between host commands, the hang, and the host's liberties (60_exceptions.md R163, R171, R178,
R179). -/

namespace Sys2Proof.Machine

/-- Settles O39, by the two cases of the boundary. -/
theorem boundaryTakesTheTickFirst : Obligations.BoundaryTakesTheTickFirst := by
  intro s ms hms
  rw [step_of_schedule s .boundary ms hms, takeMove, boundaryStep]
  refine ⟨fun hp => ?_, fun hp => if_neg (by simp [hp])⟩
  rw [if_pos hp, tick, if_pos hp]

/-! The hang (60_exceptions.md R171). -/

theorem tickOnClk_of_not_due (s : State) (hp : s.tickPending = false) : tickOnClk s = s := by
  simp [tickOnClk, hp]

theorem presentWord_of_taken {s : State} {w : Word} (hw : s.portHead = some w) : presentWord s = s := by
  simp [presentWord, hw]

theorem headHeld_iff (s : State) : headHeld s = true ↔ ∃ w, s.portHead = some w ∧ held (decode w) s = true := by
  unfold headHeld
  split
  next w hw => simp [hw]
  next hw => simp [hw]

theorem hang_spendMove {s : State} (h : Hang s) : Hang (spendMove s) := by
  unfold spendMove
  split <;> exact h

/-- In a hang a word can be sent and the response cycle can end; every other move but RESET finds nothing to do. -/
theorem takeMove_of_hang {m : Move} {s : State} (h : Hang s) (hm : m ≠ .reset) :
    (∃ w, m = .send w ∧ takeMove m s = .next (sendWord w s)) ∨
    (m = .clk ∧ takeMove m s = .next { s with rspPort := none }) ∨
    ((∀ w, m ≠ .send w) ∧ takeMove m s = .next s) := by
  obtain ⟨hhead, hen, hp⟩ := h
  obtain ⟨w, hw, hheld⟩ := (headHeld_iff s).1 hhead
  cases m with
  | send v => exact .inl ⟨v, rfl, rfl⟩
  | clk => exact .inr (.inl ⟨rfl, congrArg Host.Outcome.next (clockEdge_stopped _ s hen)⟩)
  | present => exact .inr (.inr ⟨nofun, congrArg Host.Outcome.next (presentWord_of_taken hw)⟩)
  | host => exact .inr (.inr ⟨nofun, hostStep_of_held hw hheld⟩)
  | expire => exact .inr (.inr ⟨nofun, congrArg Host.Outcome.next (expire_stopped s hen)⟩)
  | tick => exact .inr (.inr ⟨nofun, congrArg Host.Outcome.next (tick_of_not_due s hp)⟩)
  | tickOnClk => exact .inr (.inr ⟨nofun, congrArg Host.Outcome.next (tickOnClk_of_not_due s hp)⟩)
  | boundary => exact .inr (.inr ⟨nofun, (if_neg (by simp [hp])).trans (hostStep_of_held hw hheld)⟩)
  | reset => exact absurd rfl hm

/-- Settles O51: a hang reads neither the response port nor the words to come. -/
theorem hangLastsUntilReset : Obligations.HangLastsUntilReset := by
  intro s t hs hm h
  have hs' := hang_spendMove hs
  obtain ⟨w, hsend, hmove⟩ | ⟨hclk, hmove⟩ | ⟨hsend, hmove⟩ := takeMove_of_hang hs' hm
  all_goals obtain rfl := Host.Outcome.next.inj (hmove.symm.trans h)
  · exact ⟨hs', rfl, .inl ⟨w, hsend, by simp⟩⟩
  · exact ⟨hs', rfl, .inr ⟨by simp [hclk], by simp⟩⟩
  · exact ⟨hs', rfl, .inr ⟨hsend, by simp⟩⟩

/-! The host's words (60_exceptions.md R178, R179). -/

theorem presentWord_of_free {s : State} {w : Word} {ws : List Word} (hport : s.portHead = none)
    (hqueue : s.hostQueue = w :: ws) : presentWord s = { s with hostQueue := ws, portHead := some w } := by
  simp [presentWord, hport, hqueue]

/-- Settles O54: the step is the host's, with the move spent. -/
theorem hostSendsAnyWordAtAnyTime : Obligations.HostSendsAnyWordAtAnyTime := by
  refine ⟨fun s w ms hms => step_of_schedule s (.send w) ms hms, fun s w ws ms hms hport hqueue => ?_⟩
  exact (step_of_schedule s .present ms hms).trans (congrArg Host.Outcome.next (presentWord_of_free hport hqueue))

/-- Every order of moves, from every state, is a run (60_exceptions.md R178). -/
theorem exists_run (mv : Nat → Move) (s : State) : ∃ r, IsRun mv r ∧ r 0 = s := by
  choose next hnext using takeMove_next
  exact ⟨fun n => Nat.rec s (fun k t => next (mv k) t) n, fun n => hnext _ _, rfl⟩

/-- At a free port, with nothing sent, a word that waits for no swap is sent, presented and executed, and leaves the port
free with nothing sent. -/
theorem transfer_executes {w : Word} {s a b c : State} (hport : s.portHead = none) (hqueue : s.hostQueue = [])
    (hw : waitsForSwap (decode w) = false) (ha : takeMove (.send w) s = .next a) (hb : takeMove .present a = .next b)
    (hc : takeMove .host b = .next c) :
    b.portHead = some w ∧
      (∃ u, exec (decode w) { b with rspPort := none } = .next u ∧ c = { u with portHead := none }) ∧
      c.portHead = none ∧ c.hostQueue = [] := by
  obtain rfl := Host.Outcome.next.inj ha
  have hpresent : presentWord (sendWord w s) = { s with hostQueue := [], portHead := some w } :=
    presentWord_of_free hport (by rw [sendWord_hostQueue, hqueue, List.nil_append])
  obtain rfl := hpresent.symm.trans (Host.Outcome.next.inj hb)
  obtain ⟨u, hu⟩ := exec_next (decode w) { s with hostQueue := [], portHead := some w, rspPort := none }
  have hfree : held (decode w) { s with hostQueue := [], portHead := some w } = false := by rw [held, hw, Bool.false_and]
  rw [takeMove, hostStep_of_not_held rfl hfree, hu] at hc
  obtain rfl := Host.Outcome.next.inj hc
  exact ⟨rfl, ⟨u, hu, rfl⟩, rfl, exec_hostQueue _ _ _ hu⟩

/-- The moves of a host that has the words of a stream executed, one after the other: it sends, presents and executes each. -/
def streamMoves (f : Nat → Word) (n : Nat) : Move :=
  match n % 3 with
  | 0 => .send (f (n / 3))
  | 1 => .present
  | _ => .host

theorem streamMoves_send (f : Nat → Word) (n : Nat) : streamMoves f (3 * n) = .send (f n) := by
  have hmod : 3 * n % 3 = 0 := by omega
  have hdiv : 3 * n / 3 = n := by omega
  simp only [streamMoves, hmod, hdiv]

theorem streamMoves_present (f : Nat → Word) (n : Nat) : streamMoves f (3 * n + 1) = .present := by
  have hmod : (3 * n + 1) % 3 = 1 := by omega
  simp only [streamMoves, hmod]

theorem streamMoves_host (f : Nat → Word) (n : Nat) : streamMoves f (3 * n + 2) = .host := by
  have hmod : (3 * n + 2) % 3 = 2 := by omega
  simp only [streamMoves, hmod]

/-- Settles O55: the port is free, with nothing sent, before each transfer. -/
theorem everyStreamOfWordsCanBeExecuted : Obligations.EveryStreamOfWordsCanBeExecuted := by
  intro s f hport hqueue hf
  obtain ⟨r, hrun, rfl⟩ := exists_run (streamMoves f) s
  have htransfer (n : Nat) (hp : (r (3 * n)).portHead = none) (hq : (r (3 * n)).hostQueue = []) :=
    transfer_executes hp hq (hf n) (streamMoves_send f n ▸ hrun (3 * n)) (streamMoves_present f n ▸ hrun (3 * n + 1))
      (streamMoves_host f n ▸ hrun (3 * n + 2))
  have hfree (n : Nat) : (r (3 * n)).portHead = none ∧ (r (3 * n)).hostQueue = [] := by
    induction n with
    | zero => exact ⟨hport, hqueue⟩
    | succ n ih =>
      obtain ⟨hp, hq⟩ := ih
      obtain ⟨-, -, hnext⟩ := htransfer n hp hq
      exact hnext
  refine ⟨streamMoves f, r, hrun, rfl, fun n => ?_⟩
  obtain ⟨hp, hq⟩ := hfree n
  obtain ⟨hword, hexec, -, -⟩ := htransfer n hp hq
  exact ⟨hp, hword, hexec⟩

end Sys2Proof.Machine
end

section
/-! PROOFS. After RESET, and how long a request stands (70_reset_and_hazards.md R180, R181, R187). -/

namespace Sys2Proof.Machine

/-! RESET (70_reset_and_hazards.md R180, R181). -/

theorem step_reset (s : State) (hm : nextMove s = .reset) : step s = .next (resetBlock (spendMove s)) := by
  rw [step, hm, takeMove]

theorem statusWord_resetBlock (s : State) : statusWord (resetBlock s) = 0#32 := by
  simp [statusWord]

/-- RESET clears every cell of the pixel space, those of the back store among them (10_state.md R44). -/
theorem backCell_resetBlock (x y : Int) (s : State) : backCell x y (resetBlock s) = 0#16 := by
  rw [backCell_eq_read, resetBlock_mem, Memory.read_nil]

/-- After RESET a GETPIXEL in range reads a cleared cell, and one out of range answers 0 as ever. -/
theorem exec_getPixel_resetBlock (x y : Int) (s : State) :
    exec (.getPixel x y) (resetBlock s) = .next (respond 0#32 (resetBlock s)) := by
  rw [exec_getPixel, backCell_resetBlock, BitVec.setWidth_zero, ite_self]

/-- Settles O43: the step's state is that of resetBlock, which the trace, STATUS and GETPIXEL then read. -/
theorem resetAppendsOneEventAndReadsZero : Obligations.ResetAppendsOneEventAndReadsZero := by
  intro s hm
  refine ⟨resetBlock (spendMove s), step_reset s hm, ?_, statusWord_resetBlock _, fun x y =>
    ⟨_, exec_getPixel_resetBlock x y _, respond_responses _ _⟩⟩
  rw [resetBlock_trace, spendMove_trace]

/-! A request under expiries each taken by its TICK (70_reset_and_hazards.md R187). -/

/-- The 32 places of a frame (40_scan_engine.md R105). -/
theorem framePos_lt (s : State) : framePos s < 32 := by
  have hb := s.bitIdx.isLt
  have hr := s.rowIdx.isLt
  unfold framePos
  omega

/-- A request stands with store f in front, the SWAP that honours it comes with the m-th step from s, and the frame then
starts anew. -/
inductive SwapIn (f : BitVec 1) : Nat → State → Prop
  | done {s : State} (hp : s.pending = false) (hf : s.frontSel = 1#1 - f) (hpos : framePos s = 0) : SwapIn f 0 s
  | later {m : Nat} {s t : State} (hp : s.pending = true) (hf : s.frontSel = f) (h : step s = .next t)
      (ht : SwapIn f m t) : SwapIn f (m + 1) s

theorem run_succ_of_step {s t : State} (h : step s = .next t) (k : Nat) :
    Host.Core.run core (k + 1) s = Host.Core.run core k t := by
  simp only [Host.Core.run, show core.step s = .next t from h]

/-- Before its m-th step a run finds the request standing, and after it the request honoured. -/
theorem SwapIn.run {f : BitVec 1} {m : Nat} {s : State} (h : SwapIn f m s) :
    (∀ k, k < m → ∃ t : State, Host.Core.run core k s = .next t ∧ t.pending = true ∧ t.frontSel = f) ∧
    ∃ t : State, Host.Core.run core m s = .next t ∧ t.pending = false ∧ t.frontSel = 1#1 - f ∧ framePos t = 0 := by
  induction h with
  | done hp hf hpos => exact ⟨nofun, _, rfl, hp, hf, hpos⟩
  | later hp hf h ht ih =>
    obtain ⟨hbefore, hafter⟩ := ih
    refine ⟨fun k hk => ?_, by rwa [run_succ_of_step h]⟩
    cases k with
    | zero => exact ⟨_, rfl, hp, hf⟩
    | succ k =>
      rw [run_succ_of_step h]
      exact hbefore k (Nat.lt_of_succ_lt_succ hk)

/-- The state after an expiry and the TICK that takes it, with the moves ms still to come. -/
def afterTurn (ms : List Move) (s : State) : State := tickBody (expire { s with schedule := ms })

@[simp] theorem afterTurn_tmrEn (ms : List Move) (s : State) : (afterTurn ms s).tmrEn = s.tmrEn := by simp [afterTurn]
@[simp] theorem afterTurn_tmrIen (ms : List Move) (s : State) : (afterTurn ms s).tmrIen = true := by simp [afterTurn]
@[simp] theorem afterTurn_schedule (ms : List Move) (s : State) : (afterTurn ms s).schedule = ms := by simp [afterTurn]

/-- A turn takes the cursor one place on (40_scan_engine.md R105). -/
theorem framePos_afterTurn (ms : List Move) (s : State) : framePos (afterTurn ms s) = (framePos s + 1) % 32 := by
  rw [afterTurn, tickBody_framePos, framePos_expire]
  rfl

/-- The turn whose TICK is that of (3,7) honours the request (40_scan_engine.md R106, R110). -/
theorem afterTurn_honours (ms : List Move) (s : State) (hpos : framePos s = 31) (hp : s.pending = true) :
    (afterTurn ms s).pending = false ∧ (afterTurn ms s).frontSel = 1#1 - s.frontSel := by
  have h := tickBody_honours (expire { s with schedule := ms }) ((framePos_expire _).trans hpos) ((expire_pending _).trans hp)
  rwa [expire_frontSel] at h

/-- Every other turn leaves the roles and the request (40_scan_engine.md R104). -/
theorem afterTurn_keeps_request (ms : List Move) (s : State) (hpos : framePos s ≠ 31) :
    (afterTurn ms s).frontSel = s.frontSel ∧ (afterTurn ms s).pending = s.pending := by
  obtain ⟨-, hfront, hpend⟩ := tickBody_off_wrap (expire { s with schedule := ms })
    fun ⟨h31, _⟩ => hpos ((framePos_expire { s with schedule := ms }).symm.trans h31)
  exact ⟨hfront.trans (expire_frontSel _), hpend.trans (expire_pending _)⟩

/-- A turn is the next two steps, where the schedule says so (60_exceptions.md R160, R162). -/
theorem step_turn {s : State} {ms : List Move} (hen : s.tmrEn = true) (hien : s.tmrIen = true)
    (hms : s.schedule = .expire :: .tick :: ms) :
    step s = .next (expire { s with schedule := .tick :: ms }) ∧
    step (expire { s with schedule := .tick :: ms }) = .next (afterTurn ms s) := by
  refine ⟨step_of_schedule s .expire _ hms, ?_⟩
  rw [afterTurn, expire_running { s with schedule := .tick :: ms } hen hien, expire_running { s with schedule := ms } hen hien]
  exact step_of_schedule _ .tick ms rfl

/-- A turn starts with the request standing and leaves it so between its two steps. -/
theorem SwapIn.of_turn {m : Nat} {s : State} {ms : List Move} (hp : s.pending = true) (hen : s.tmrEn = true)
    (hien : s.tmrIen = true) (hms : s.schedule = .expire :: .tick :: ms)
    (ht : SwapIn s.frontSel m (afterTurn ms s)) : SwapIn s.frontSel (m + 2) s := by
  obtain ⟨hexpire, htick⟩ := step_turn hen hien hms
  exact .later hp rfl hexpire (.later ((expire_pending _).trans hp) (expire_frontSel _) htick ht)

/-- From d places before (3,7) the SWAP comes with turn d + 1, by induction on d. -/
theorem swapIn_of_turns {d n : Nat} {s : State} {ms : List Move} (hp : s.pending = true) (hen : s.tmrEn = true)
    (hien : s.tmrIen = true) (hms : s.schedule = (List.replicate n [Move.expire, Move.tick]).flatten ++ ms)
    (hpos : framePos s + d = 31) (hn : d < n) : SwapIn s.frontSel (2 * (d + 1)) s := by
  induction d generalizing n s with
  | zero =>
    obtain ⟨n, rfl⟩ := Nat.exists_eq_add_of_le' hn
    obtain ⟨hpend, hfront⟩ := afterTurn_honours _ s hpos hp
    exact .of_turn hp hen hien hms (.done hpend hfront (by rw [framePos_afterTurn, show framePos s = 31 from hpos]))
  | succ d ih =>
    obtain ⟨n, rfl⟩ := Nat.exists_eq_add_of_le' (Nat.zero_lt_of_lt hn)
    obtain ⟨hfront, hpend⟩ := afterTurn_keeps_request _ s (by omega)
    have hnext := ih (hpend.trans hp) ((afterTurn_tmrEn _ s).trans hen) (afterTurn_tmrIen _ s) (afterTurn_schedule _ s)
      (by rw [framePos_afterTurn]; omega) (Nat.lt_of_succ_lt_succ hn)
    exact .of_turn hp hen hien hms (hfront ▸ hnext)

/-- Settles O52: the frame in progress is 31 - p places before its last TICK. -/
theorem pendingSwapComesWithinOneFrame : Obligations.PendingSwapComesWithinOneFrame := by
  intro s ms hp hen hien hms
  obtain ⟨d, hd⟩ := Nat.exists_eq_add_of_le (Nat.le_of_lt_succ (framePos_lt s))
  have hswap := (swapIn_of_turns hp hen hien hms hd.symm (by omega)).run
  rwa [show d + 1 = 32 - framePos s by omega] at hswap

end Sys2Proof.Machine
end
